-- ==== Sys2Proof/Word.lean ====
section
/-!
DEFINITION. The two bit-vector types of the MACPU: a byte of memory and a 32-bit word
(register value, address, instruction word). spec/00_scope.md R5, spec/20_memory.md R30.
-/
namespace Sys2Proof

/-- The addressable unit: 8 bits (R30). -/
abbrev Byte := BitVec 8

/-- A register value, an address or an instruction word: XLEN = ALEN = ILEN = 32 bits. -/
abbrev Word := BitVec 32

end Sys2Proof
end

