-- ==== Sys2Proof/Config.lean ====
section
/-!
DEFINITION. The implementation parameters of spec/00_scope.md section 4, one type per parameter that has
alternatives, the record `Settings` of all of them, the spec's default `Config.defaults`, and the one free
value. The decoder and the machine read the setting in force from `Sys2Proof.settings` (Decode.lean).
UNINIT_READ is not here: log 1.
-/
namespace Sys2Proof

/-- ENDIAN (R33, D4): which byte of a 16- or 32-bit value lies at the lowest address. -/
inductive Endian where
  | little
  | big
deriving DecidableEq, Repr

/-- MISALIGNED_DATA (R35, D5): a misaligned 16- or 32-bit data access faults or is done byte by byte. -/
inductive MisalignedData where
  | fault
  | split
deriving DecidableEq, Repr

/-- IMM_EXT and LOAD_EXT (R60, D7; R80 to R83, D8): how a narrow value is widened to 32 bits. -/
inductive Extension where
  | zero
  | sign
deriving DecidableEq, Repr

/-- OPC206 (R65, D13): the meaning of opcode 0x206, which the source prints twice. -/
inductive Opc206 where
  | bandRI
  | borRR
  | refuse
deriving DecidableEq, Repr

/-- DIV0 (R127, R210, D16): a zero divisor faults or leaves an arbitrary value in the target. -/
inductive Div0 where
  | fault
  | any
deriving DecidableEq, Repr

/-- SHIFT_AMOUNT (R141, D18): the whole count is used, or the count modulo 32. -/
inductive ShiftAmount where
  | unmasked
  | mod32
deriving DecidableEq, Repr

/-- CJMP_LAYOUT (R59, D23): OJMP and ZJMP hold their condition register in bits 21:16, or are refused. -/
inductive CjmpLayout where
  | regAt21
  | refuse
deriving DecidableEq, Repr

/-- A run of consecutive byte addresses `base .. base + size - 1` (R31). -/
structure Region where
  base : Nat
  size : Nat
deriving DecidableEq, Repr

/-- The region holds the byte address `a`. -/
def Region.holds (r : Region) (a : Nat) : Bool :=
  decide (r.base ≤ a) && decide (a < r.base + r.size)

/-- CODE_WRITES (R42, D30): a store into program text is visible to later fetches, or raises
`CodeWrite`; the refusing setting carries the addresses of the program text. -/
inductive CodeWrites where
  | visible
  | refuse (text : List Region)
deriving DecidableEq, Repr

/-- The parameters with alternatives (spec/00_scope.md section 4). -/
structure Settings where
  endian : Endian
  misalignedData : MisalignedData
  immExt : Extension
  loadExt : Extension
  strictDecode : Bool
  opc206 : Opc206
  divSigned : Bool
  div0 : Div0
  cmpSigned : Bool
  shiftAmount : ShiftAmount
  cjmpLayout : CjmpLayout
  codeWrites : CodeWrites
deriving DecidableEq, Repr

namespace Config

/-- The spec's default of every parameter (spec/00_scope.md section 4). -/
def defaults : Settings where
  endian := .little
  misalignedData := .fault
  immExt := .zero
  loadExt := .zero
  strictDecode := true
  opc206 := .bandRI
  divSigned := true
  div0 := .fault
  cmpSigned := true
  shiftAmount := .unmasked
  cjmpLayout := .regAt21
  codeWrites := .visible

/-- INSN_BYTES (D2): bytes between consecutive instructions. -/
abbrev insnBytes : Nat := 4

/-- FETCH_ALIGN (D6): a fetch address is a multiple of this. -/
abbrev fetchAlign : Nat := 4

/-- The number of byte addresses, 2^ALEN (D3). -/
abbrev addressCount : Nat := 4294967296

/-- RESET_PC (R25, D28), OPEN, spec default 0 (log 2). -/
def resetPc : Word := 0#32

/-- The set `Backed` of MEM_MAP at reset (R31, D31), OPEN. DESIGN CHOICE (log 3): the whole space. -/
def resetMap : List Region := [⟨0, addressCount⟩]

/-- What a backed byte that the memory does not list reads as. DESIGN CHOICE (log 4): zero. -/
def blankByte : Byte := 0#8

/-- The quotient of a division of this dividend by zero under DIV0 = any: "an arbitrary 32-bit value",
which "must not be given a fixed value" (R210). A free value (log 14). -/
opaque divByZero : Word → Word

end Config
end Sys2Proof
end

