-- ==== Sys2Proof/Syntax.lean ====
section
/-!
DEFINITION. The registers (spec/10_state.md R11) and the instructions, one constructor of `Instr` for each
of the 62 rows of spec/opcode_table.json, in the table's order. Operand order in a constructor is the order
of the fields in the word: `ra` (bits 21:16), then `rb` (11:6), then `rc` (5:0) or the immediate.
-/
namespace Sys2Proof

/-- A register label 0 to 41 (R11): 0 is %ZERO, 1 to 40 the general purpose registers, 41 is %PC.
Labels 42 to 63 name no register (R19). -/
abbrev Label := Fin 42

namespace Label

/-- %ZERO. -/
abbrev zero : Label := 0

/-- %PC. -/
abbrev pc : Label := 41

/-- The general purpose register of bank `b` (A, B, C, D) and slot `s`: label 1 + 10*b + s (R11). -/
def gpr (b : Fin 4) (s : Fin 10) : Label := ⟨1 + 10 * b.val + s.val, by omega⟩

/-- The names of the registers in label order (R11). -/
def names : List String :=
  ["%ZERO"] ++
  ["%A1", "%A2", "%A3", "%A4", "%AR1", "%AR2", "%AR3", "%ASS", "%ASP", "%ADS"] ++
  ["%B1", "%B2", "%B3", "%B4", "%BR1", "%BR2", "%BR3", "%BSS", "%BSP", "%BDS"] ++
  ["%C1", "%C2", "%C3", "%C4", "%CR1", "%CR2", "%CR3", "%CSS", "%CSP", "%CDS"] ++
  ["%D1", "%D2", "%D3", "%D4", "%DR1", "%DR2", "%DR3", "%DSS", "%DSP", "%DDS"] ++
  ["%PC"]

/-- The register's name (R11). -/
def name (l : Label) : String := names.getD l.val ""

end Label

/-- The instructions: one constructor per encoding (R8, R64). -/
inductive Instr where
  -- memory operations (R80 to R87)
  | load8Imm (ra : Label) (imm8 : BitVec 8)
  | load8Mem (ra rb rc : Label)
  | load16Imm (ra : Label) (imm16 : BitVec 16)
  | load16Mem (ra rb rc : Label)
  | load32Mem (ra rb rc : Label)
  | store8 (ra rb rc : Label)
  | store16 (ra rb rc : Label)
  | store32 (ra rb rc : Label)
  -- register operation (R100)
  | move (ra rc : Label)
  -- integer operations (R106 to R126)
  | addRR (ra rb rc : Label)
  | addRI (ra rb : Label) (imm10 : BitVec 10)
  | subRR (ra rb rc : Label)
  | subRI (ra rb : Label) (imm10 : BitVec 10)
  | subIR (ra rb : Label) (imm10 : BitVec 10)
  | bandRR (ra rb rc : Label)
  | bandRI (ra rb : Label) (imm10 : BitVec 10)
  | borRR (ra rb rc : Label)
  | borRI (ra rb : Label) (imm10 : BitVec 10)
  | bnotR (ra rc : Label)
  | bnotI (ra : Label) (imm16 : BitVec 16)
  | bxorRR (ra rb rc : Label)
  | bxorRI (ra rb : Label) (imm10 : BitVec 10)
  | rand (ra rc : Label)
  | ror (ra rc : Label)
  | rxor (ra rc : Label)
  | mulRR (ra rb rc : Label)
  | mulRI (ra rb : Label) (imm10 : BitVec 10)
  | divRR (ra rb rc : Label)
  | divRI (ra rb : Label) (imm10 : BitVec 10)
  | divIR (ra rb : Label) (imm10 : BitVec 10)
  -- shifts (R142 to R157)
  | slRR (ra rb rc : Label)
  | slRI (ra rb : Label) (imm10 : BitVec 10)
  | slIR (ra rb : Label) (imm10 : BitVec 10)
  | slII (ra : Label) (immA : BitVec 10) (immB : BitVec 6)
  | lrsRR (ra rb rc : Label)
  | lrsRI (ra rb : Label) (imm10 : BitVec 10)
  | lrsIR (ra rb : Label) (imm10 : BitVec 10)
  | lrsII (ra : Label) (immA : BitVec 10) (immB : BitVec 6)
  | arsRR (ra rb rc : Label)
  | arsRI (ra rb : Label) (imm10 : BitVec 10)
  | arsIR (ra rb : Label) (imm10 : BitVec 10)
  | arsII (ra : Label) (immA : BitVec 10) (immB : BitVec 6)
  | lcsRR (ra rb rc : Label)
  | lcsRI (ra rb : Label) (imm10 : BitVec 10)
  | lcsIR (ra rb : Label) (imm10 : BitVec 10)
  | lcsII (ra : Label) (immA : BitVec 10) (immB : BitVec 6)
  -- compares, the source's "Branch Operations" (R166 to R175)
  | gtRR (ra rb rc : Label)
  | gtRI (ra rb : Label) (imm10 : BitVec 10)
  | eqRR (ra rb rc : Label)
  | eqRI (ra rb : Label) (imm10 : BitVec 10)
  | ltRR (ra rb rc : Label)
  | ltRI (ra rb : Label) (imm10 : BitVec 10)
  | gteRR (ra rb rc : Label)
  | gteRI (ra rb : Label) (imm10 : BitVec 10)
  | lteRR (ra rb rc : Label)
  | lteRI (ra rb : Label) (imm10 : BitVec 10)
  -- jumps (R186 to R191)
  | jmpImm (imm22 : BitVec 22)
  | jmpReg (rb rc : Label)
  | ojmpImm (ra : Label) (imm16 : BitVec 16)
  | ojmpReg (ra rb rc : Label)
  | zjmpImm (ra : Label) (imm16 : BitVec 16)
  | zjmpReg (ra rb rc : Label)
deriving DecidableEq, Repr

end Sys2Proof
end

