-- ==== Sys2Proof/WellFormed.lean ====
section
/-!
DEFINITION. Which register each field may name (spec/30_encoding.md R62) and the well-formed instructions:
those whose labels lie in the ranges of their fields.
-/
namespace Sys2Proof

/-- The label ranges of R62. The data source of a store has the same range as a target; the two are kept
apart because STRICT_DECODE = false widens the one and not the other (R63). -/
inductive LabelRange where
  /-- a target register: 1 to 40 -/
  | target
  /-- the register whose data a store writes: 1 to 40 -/
  | storeData
  /-- a source register: 0 to 41 -/
  | source
  /-- an address base, or the source of RAND, ROR, RXOR: 1 to 41 -/
  | notZero
  /-- an address index: 0 to 40 -/
  | notPc
deriving DecidableEq, Repr

/-- The label lies in the range (R62). -/
def LabelRange.contains : LabelRange → Label → Bool
  | .target, l => decide (1 ≤ l.val) && decide (l.val ≤ 40)
  | .storeData, l => decide (1 ≤ l.val) && decide (l.val ≤ 40)
  | .source, _ => true
  | .notZero, l => decide (1 ≤ l.val)
  | .notPc, l => decide (l.val ≤ 40)

/-- Every label of the instruction lies in the range of its field (R62). The immediates have the widths of
their fields by type (R60). -/
def Instr.wf : Instr → Bool
  | .load8Imm ra _ => LabelRange.target.contains ra
  | .load8Mem ra rb rc => LabelRange.target.contains ra && LabelRange.notZero.contains rb && LabelRange.notPc.contains rc
  | .load16Imm ra _ => LabelRange.target.contains ra
  | .load16Mem ra rb rc => LabelRange.target.contains ra && LabelRange.notZero.contains rb && LabelRange.notPc.contains rc
  | .load32Mem ra rb rc => LabelRange.target.contains ra && LabelRange.notZero.contains rb && LabelRange.notPc.contains rc
  | .store8 ra rb rc => LabelRange.storeData.contains ra && LabelRange.notZero.contains rb && LabelRange.notPc.contains rc
  | .store16 ra rb rc => LabelRange.storeData.contains ra && LabelRange.notZero.contains rb && LabelRange.notPc.contains rc
  | .store32 ra rb rc => LabelRange.storeData.contains ra && LabelRange.notZero.contains rb && LabelRange.notPc.contains rc
  | .move ra _ => LabelRange.target.contains ra
  | .addRR ra _ _ => LabelRange.target.contains ra
  | .addRI ra _ _ => LabelRange.target.contains ra
  | .subRR ra _ _ => LabelRange.target.contains ra
  | .subRI ra _ _ => LabelRange.target.contains ra
  | .subIR ra _ _ => LabelRange.target.contains ra
  | .bandRR ra _ _ => LabelRange.target.contains ra
  | .bandRI ra _ _ => LabelRange.target.contains ra
  | .borRR ra _ _ => LabelRange.target.contains ra
  | .borRI ra _ _ => LabelRange.target.contains ra
  | .bnotR ra _ => LabelRange.target.contains ra
  | .bnotI ra _ => LabelRange.target.contains ra
  | .bxorRR ra _ _ => LabelRange.target.contains ra
  | .bxorRI ra _ _ => LabelRange.target.contains ra
  | .rand ra rc => LabelRange.target.contains ra && LabelRange.notZero.contains rc
  | .ror ra rc => LabelRange.target.contains ra && LabelRange.notZero.contains rc
  | .rxor ra rc => LabelRange.target.contains ra && LabelRange.notZero.contains rc
  | .mulRR ra _ _ => LabelRange.target.contains ra
  | .mulRI ra _ _ => LabelRange.target.contains ra
  | .divRR ra _ _ => LabelRange.target.contains ra
  | .divRI ra _ _ => LabelRange.target.contains ra
  | .divIR ra _ _ => LabelRange.target.contains ra
  | .slRR ra _ _ => LabelRange.target.contains ra
  | .slRI ra _ _ => LabelRange.target.contains ra
  | .slIR ra _ _ => LabelRange.target.contains ra
  | .slII ra _ _ => LabelRange.target.contains ra
  | .lrsRR ra _ _ => LabelRange.target.contains ra
  | .lrsRI ra _ _ => LabelRange.target.contains ra
  | .lrsIR ra _ _ => LabelRange.target.contains ra
  | .lrsII ra _ _ => LabelRange.target.contains ra
  | .arsRR ra _ _ => LabelRange.target.contains ra
  | .arsRI ra _ _ => LabelRange.target.contains ra
  | .arsIR ra _ _ => LabelRange.target.contains ra
  | .arsII ra _ _ => LabelRange.target.contains ra
  | .lcsRR ra _ _ => LabelRange.target.contains ra
  | .lcsRI ra _ _ => LabelRange.target.contains ra
  | .lcsIR ra _ _ => LabelRange.target.contains ra
  | .lcsII ra _ _ => LabelRange.target.contains ra
  | .gtRR ra _ _ => LabelRange.target.contains ra
  | .gtRI ra _ _ => LabelRange.target.contains ra
  | .eqRR ra _ _ => LabelRange.target.contains ra
  | .eqRI ra _ _ => LabelRange.target.contains ra
  | .ltRR ra _ _ => LabelRange.target.contains ra
  | .ltRI ra _ _ => LabelRange.target.contains ra
  | .gteRR ra _ _ => LabelRange.target.contains ra
  | .gteRI ra _ _ => LabelRange.target.contains ra
  | .lteRR ra _ _ => LabelRange.target.contains ra
  | .lteRI ra _ _ => LabelRange.target.contains ra
  | .jmpImm _ => true
  | .jmpReg rb rc => LabelRange.notZero.contains rb && LabelRange.notPc.contains rc
  | .ojmpImm _ _ => true
  | .ojmpReg _ rb rc => LabelRange.notZero.contains rb && LabelRange.notPc.contains rc
  | .zjmpImm _ _ => true
  | .zjmpReg _ rb rc => LabelRange.notZero.contains rb && LabelRange.notPc.contains rc

end Sys2Proof
end

