-- ==== Sys2Proof/Decode.lean ====
section
/-!
DEFINITION. The decoder (spec/30_encoding.md R69), total on any word and on any list of bytes, rejecting by
name, and the encoder after it (the formats of R53 to R59). `settings` is the ONE place that says which
parameter values are in force for the decoder and for the machine.
-/
namespace Sys2Proof

/-- The parameter values in force: the spec's defaults (spec/00_scope.md section 4). -/
def settings : Settings := Config.defaults

/-! ## The fields of an instruction word (R52) -/

/-- The opcode, bits 31:22. -/
def opField (w : Word) : BitVec 10 := w.extractLsb' 22 10

/-- The first register field, bits 21:16. -/
def raField (w : Word) : BitVec 6 := w.extractLsb' 16 6

/-- Bits 15:12: zero in the register forms, `imm10[9:6]` in the immediate forms. -/
def z4Field (w : Word) : BitVec 4 := w.extractLsb' 12 4

/-- The second register field, bits 11:6. -/
def rbField (w : Word) : BitVec 6 := w.extractLsb' 6 6

/-- The third register field, bits 5:0. -/
def rcField (w : Word) : BitVec 6 := w.extractLsb' 0 6

/-- Bits 15:6: zero in the two-operand register forms, `immA` in the `_II` forms. -/
def z10Field (w : Word) : BitVec 10 := w.extractLsb' 6 10

/-- Bits 15:8: zero in LOAD8_IMM. -/
def z8Field (w : Word) : BitVec 8 := w.extractLsb' 8 8

/-- Bits 21:12: zero in JMP_REG. -/
def j10Field (w : Word) : BitVec 10 := w.extractLsb' 12 10

/-- Bits 7:0, the immediate of LOAD8_IMM. -/
def imm8Field (w : Word) : BitVec 8 := w.extractLsb' 0 8

/-- Bits 15:0, the immediate of LOAD16_IMM, BNOT_I, OJMP_IMM and ZJMP_IMM. -/
def imm16Field (w : Word) : BitVec 16 := w.extractLsb' 0 16

/-- The split immediate, bits 15:12 ++ 5:0. -/
def imm10Field (w : Word) : BitVec 10 := z4Field w ++ rcField w

/-- Bits 21:0, the immediate of JMP_IMM. -/
def imm22Field (w : Word) : BitVec 22 := w.extractLsb' 0 22

/-! ## Decode -/

/-- Why a word is not decoded. -/
inductive DecodeReject where
  /-- an opcode the source does not assign: IllegalInstruction (R66) -/
  | unassignedOpcode
  /-- a 1 in a field printed as zero: IllegalInstruction (R67) -/
  | nonzeroField
  /-- a register label outside the range of its field: IllegalInstruction (R63) -/
  | labelRange
  /-- an opcode the parameters give no meaning: Refused (R59, R65, R211) -/
  | declined
  /-- fewer than four bytes are left: no instruction word is there (R50) -/
  | truncated
deriving DecidableEq, Repr

/-- A field printed as zero is zero, or STRICT_DECODE is false (R67). -/
def zeroOk (c : Settings) {n : Nat} (f : BitVec n) : Bool := !c.strictDecode || f == 0#n

/-- The register a field names, if its label is in the field's range (R63). -/
def labelIn (c : Settings) (r : LabelRange) (f : BitVec 6) : Except DecodeReject Label :=
  if h : f.toNat < 42 then
    if r.contains ⟨f.toNat, h⟩ || (!c.strictDecode && r != .target) then .ok ⟨f.toNat, h⟩
    else .error .labelRange
  else .error .labelRange

/-- Format I8 (R53). -/
def decodeI8 (c : Settings) (w : Word) (mk : Label → BitVec 8 → Instr) : Except DecodeReject Instr :=
  if zeroOk c (z8Field w) then do
    let ra ← labelIn c .target (raField w)
    .ok (mk ra (imm8Field w))
  else .error .nonzeroField

/-- Format I16 (R54). -/
def decodeI16 (c : Settings) (w : Word) (mk : Label → BitVec 16 → Instr) : Except DecodeReject Instr := do
  let ra ← labelIn c .target (raField w)
  .ok (mk ra (imm16Field w))

/-- The layout shared by formats M, REG3 and CJR (R55, R57, R59), with the ranges of its three registers. -/
def decodeThree (c : Settings) (w : Word) (rA rB rC : LabelRange) (mk : Label → Label → Label → Instr) :
    Except DecodeReject Instr :=
  if zeroOk c (z4Field w) then do
    let ra ← labelIn c rA (raField w)
    let rb ← labelIn c rB (rbField w)
    let rc ← labelIn c rC (rcField w)
    .ok (mk ra rb rc)
  else .error .nonzeroField

/-- Format M of a load (R55, R62). -/
def decodeLoad (c : Settings) (w : Word) (mk : Label → Label → Label → Instr) : Except DecodeReject Instr :=
  decodeThree c w .target .notZero .notPc mk

/-- Format M of a store (R55, R62). -/
def decodeStore (c : Settings) (w : Word) (mk : Label → Label → Label → Instr) : Except DecodeReject Instr :=
  decodeThree c w .storeData .notZero .notPc mk

/-- Format REG3 (R57). -/
def decodeREG3 (c : Settings) (w : Word) (mk : Label → Label → Label → Instr) : Except DecodeReject Instr :=
  decodeThree c w .target .source .source mk

/-- Format CJR, the register form of OJMP and ZJMP (R59). -/
def decodeCJR (c : Settings) (w : Word) (mk : Label → Label → Label → Instr) : Except DecodeReject Instr :=
  decodeThree c w .source .notZero .notPc mk

/-- Format REG2 (R56); the range of the source differs between its users (R62). -/
def decodeREG2 (c : Settings) (w : Word) (rC : LabelRange) (mk : Label → Label → Instr) :
    Except DecodeReject Instr :=
  if zeroOk c (z10Field w) then do
    let ra ← labelIn c .target (raField w)
    let rc ← labelIn c rC (rcField w)
    .ok (mk ra rc)
  else .error .nonzeroField

/-- Format RI of the `_RI` and `_IR` forms (R58). -/
def decodeRI (c : Settings) (w : Word) (mk : Label → Label → BitVec 10 → Instr) : Except DecodeReject Instr := do
  let ra ← labelIn c .target (raField w)
  let rb ← labelIn c .source (rbField w)
  .ok (mk ra rb (imm10Field w))

/-- Format II (R58). -/
def decodeII (c : Settings) (w : Word) (mk : Label → BitVec 10 → BitVec 6 → Instr) : Except DecodeReject Instr := do
  let ra ← labelIn c .target (raField w)
  .ok (mk ra (z10Field w) (rcField w))

/-- Format JR (R59). -/
def decodeJR (c : Settings) (w : Word) (mk : Label → Label → Instr) : Except DecodeReject Instr :=
  if zeroOk c (j10Field w) then do
    let rb ← labelIn c .notZero (rbField w)
    let rc ← labelIn c .notPc (rcField w)
    .ok (mk rb rc)
  else .error .nonzeroField

/-- Format CJ, the immediate form of OJMP and ZJMP (R59). -/
def decodeCJ (c : Settings) (w : Word) (mk : Label → BitVec 16 → Instr) : Except DecodeReject Instr := do
  let ra ← labelIn c .source (raField w)
  .ok (mk ra (imm16Field w))

/-- Opcode 0x206, printed for both BAND_RI and BOR_RR (R65): BAND_RI by default. -/
def decode206 (c : Settings) (w : Word) : Except DecodeReject Instr :=
  match c.opc206 with
  | .bandRI => decodeRI c w .bandRI
  | .borRR => decodeREG3 c w .borRR
  | .refuse => .error .declined

/-- OJMP and ZJMP have no meaning under CJMP_LAYOUT = refuse (R59). -/
def unlessRefused (c : Settings) (r : Except DecodeReject Instr) : Except DecodeReject Instr :=
  match c.cjmpLayout with
  | .regAt21 => r
  | .refuse => .error .declined

/-- The row of R64 that an opcode selects, applied to the word (R69). -/
def decodeOp (c : Settings) (w : Word) (op : Nat) : Except DecodeReject Instr :=
  match op with
  | 0x001 => decodeI8 c w .load8Imm
  | 0x002 => decodeLoad c w .load8Mem
  | 0x003 => decodeI16 c w .load16Imm
  | 0x004 => decodeLoad c w .load16Mem
  | 0x005 => decodeLoad c w .load32Mem
  | 0x006 => decodeStore c w .store8
  | 0x007 => decodeStore c w .store16
  | 0x008 => decodeStore c w .store32
  | 0x009 => decodeREG2 c w .source .move
  | 0x200 => decodeREG3 c w .addRR
  | 0x201 => decodeRI c w .addRI
  | 0x202 => decodeREG3 c w .subRR
  | 0x203 => decodeRI c w .subRI
  | 0x204 => decodeRI c w .subIR
  | 0x205 => decodeREG3 c w .bandRR
  | 0x206 => decode206 c w
  | 0x207 => decodeRI c w .borRI
  | 0x208 => decodeREG2 c w .source .bnotR
  | 0x209 => decodeI16 c w .bnotI
  | 0x20A => decodeREG3 c w .bxorRR
  | 0x20B => decodeRI c w .bxorRI
  | 0x20C => decodeREG2 c w .notZero .rand
  | 0x20D => decodeREG2 c w .notZero .ror
  | 0x20E => decodeREG2 c w .notZero .rxor
  | 0x20F => decodeREG3 c w .mulRR
  | 0x210 => decodeRI c w .mulRI
  | 0x211 => decodeREG3 c w .divRR
  | 0x212 => decodeRI c w .divRI
  | 0x213 => decodeRI c w .divIR
  | 0x214 => decodeREG3 c w .slRR
  | 0x215 => decodeRI c w .slRI
  | 0x216 => decodeRI c w .slIR
  | 0x217 => decodeII c w .slII
  | 0x218 => decodeREG3 c w .lrsRR
  | 0x219 => decodeRI c w .lrsRI
  | 0x21A => decodeRI c w .lrsIR
  | 0x21B => decodeII c w .lrsII
  | 0x21C => decodeREG3 c w .arsRR
  | 0x21D => decodeRI c w .arsRI
  | 0x21E => decodeRI c w .arsIR
  | 0x21F => decodeII c w .arsII
  | 0x220 => decodeREG3 c w .lcsRR
  | 0x221 => decodeRI c w .lcsRI
  | 0x222 => decodeRI c w .lcsIR
  | 0x223 => decodeII c w .lcsII
  | 0x240 => decodeREG3 c w .gtRR
  | 0x241 => decodeRI c w .gtRI
  | 0x242 => decodeREG3 c w .eqRR
  | 0x243 => decodeRI c w .eqRI
  | 0x244 => decodeREG3 c w .ltRR
  | 0x245 => decodeRI c w .ltRI
  | 0x246 => decodeREG3 c w .gteRR
  | 0x247 => decodeRI c w .gteRI
  | 0x248 => decodeREG3 c w .lteRR
  | 0x249 => decodeRI c w .lteRI
  | 0x300 => .ok (.jmpImm (imm22Field w))
  | 0x301 => decodeJR c w .jmpReg
  | 0x302 => unlessRefused c (decodeCJ c w .ojmpImm)
  | 0x303 => unlessRefused c (decodeCJR c w .ojmpReg)
  | 0x304 => unlessRefused c (decodeCJ c w .zjmpImm)
  | 0x305 => unlessRefused c (decodeCJR c w .zjmpReg)
  | _ => .error .unassignedOpcode

/-- The decoding procedure under any parameter values (R69). -/
def decodeWith (c : Settings) (w : Word) : Except DecodeReject Instr := decodeOp c w (opField w).toNat

/-- The decoder of the machine (R69). -/
def decode (w : Word) : Except DecodeReject Instr := decodeWith settings w

/-! ## Words as bytes (R33, R37) -/

/-- The word whose bytes, from the lowest address up, are these. -/
def wordOfBytes (e : Endian) (b0 b1 b2 b3 : Byte) : Word :=
  match e with
  | .little => b3 ++ b2 ++ b1 ++ b0
  | .big => b0 ++ b1 ++ b2 ++ b3

/-- The bytes of a word, from the lowest address up. -/
def bytesOfWord (e : Endian) (w : Word) : List Byte :=
  match e with
  | .little => [w.extractLsb' 0 8, w.extractLsb' 8 8, w.extractLsb' 16 8, w.extractLsb' 24 8]
  | .big => [w.extractLsb' 24 8, w.extractLsb' 16 8, w.extractLsb' 8 8, w.extractLsb' 0 8]

/-- Decode the instruction at the head of a list of bytes; the rest of the list comes with it. -/
def decodeBytes : List Byte → Except DecodeReject (Instr × List Byte)
  | b0 :: b1 :: b2 :: b3 :: rest =>
    match decode (wordOfBytes settings.endian b0 b1 b2 b3) with
    | .ok i => .ok (i, rest)
    | .error r => .error r
  | _ => .error .truncated

/-- The instruction the decoder reads from a row's word: `w` has `nbits` bits, every bit above is 0. -/
def decodeTableWord (nbits w : Nat) : Option Instr :=
  match decodeBytes (bytesOfWord settings.endian (BitVec.ofNat 32 (w % 2 ^ nbits))) with
  | .ok (i, _) => some i
  | .error _ => none

/-! ## Encode -/

/-- The opcode of the instruction's row (R64). BAND_RI and BOR_RR share 0x206 (R65). -/
def Instr.opcode : Instr → BitVec 10
  | .load8Imm _ _ => 0x001#10
  | .load8Mem _ _ _ => 0x002#10
  | .load16Imm _ _ => 0x003#10
  | .load16Mem _ _ _ => 0x004#10
  | .load32Mem _ _ _ => 0x005#10
  | .store8 _ _ _ => 0x006#10
  | .store16 _ _ _ => 0x007#10
  | .store32 _ _ _ => 0x008#10
  | .move _ _ => 0x009#10
  | .addRR _ _ _ => 0x200#10
  | .addRI _ _ _ => 0x201#10
  | .subRR _ _ _ => 0x202#10
  | .subRI _ _ _ => 0x203#10
  | .subIR _ _ _ => 0x204#10
  | .bandRR _ _ _ => 0x205#10
  | .bandRI _ _ _ => 0x206#10
  | .borRR _ _ _ => 0x206#10
  | .borRI _ _ _ => 0x207#10
  | .bnotR _ _ => 0x208#10
  | .bnotI _ _ => 0x209#10
  | .bxorRR _ _ _ => 0x20A#10
  | .bxorRI _ _ _ => 0x20B#10
  | .rand _ _ => 0x20C#10
  | .ror _ _ => 0x20D#10
  | .rxor _ _ => 0x20E#10
  | .mulRR _ _ _ => 0x20F#10
  | .mulRI _ _ _ => 0x210#10
  | .divRR _ _ _ => 0x211#10
  | .divRI _ _ _ => 0x212#10
  | .divIR _ _ _ => 0x213#10
  | .slRR _ _ _ => 0x214#10
  | .slRI _ _ _ => 0x215#10
  | .slIR _ _ _ => 0x216#10
  | .slII _ _ _ => 0x217#10
  | .lrsRR _ _ _ => 0x218#10
  | .lrsRI _ _ _ => 0x219#10
  | .lrsIR _ _ _ => 0x21A#10
  | .lrsII _ _ _ => 0x21B#10
  | .arsRR _ _ _ => 0x21C#10
  | .arsRI _ _ _ => 0x21D#10
  | .arsIR _ _ _ => 0x21E#10
  | .arsII _ _ _ => 0x21F#10
  | .lcsRR _ _ _ => 0x220#10
  | .lcsRI _ _ _ => 0x221#10
  | .lcsIR _ _ _ => 0x222#10
  | .lcsII _ _ _ => 0x223#10
  | .gtRR _ _ _ => 0x240#10
  | .gtRI _ _ _ => 0x241#10
  | .eqRR _ _ _ => 0x242#10
  | .eqRI _ _ _ => 0x243#10
  | .ltRR _ _ _ => 0x244#10
  | .ltRI _ _ _ => 0x245#10
  | .gteRR _ _ _ => 0x246#10
  | .gteRI _ _ _ => 0x247#10
  | .lteRR _ _ _ => 0x248#10
  | .lteRI _ _ _ => 0x249#10
  | .jmpImm _ => 0x300#10
  | .jmpReg _ _ => 0x301#10
  | .ojmpImm _ _ => 0x302#10
  | .ojmpReg _ _ _ => 0x303#10
  | .zjmpImm _ _ => 0x304#10
  | .zjmpReg _ _ _ => 0x305#10

/-- The 6-bit field that holds a label. -/
def labelField (l : Label) : BitVec 6 := BitVec.ofNat 6 l.val

/-- Format I8 (R53). -/
def layI8 (op : BitVec 10) (ra : Label) (imm8 : BitVec 8) : Word := op ++ labelField ra ++ 0#8 ++ imm8

/-- Formats I16 and CJ (R54, R59). -/
def layI16 (op : BitVec 10) (ra : Label) (imm16 : BitVec 16) : Word := op ++ labelField ra ++ imm16

/-- Formats M, REG3 and CJR (R55, R57, R59). -/
def layThree (op : BitVec 10) (ra rb rc : Label) : Word :=
  op ++ labelField ra ++ 0#4 ++ labelField rb ++ labelField rc

/-- Format REG2 (R56). -/
def layREG2 (op : BitVec 10) (ra rc : Label) : Word := op ++ labelField ra ++ 0#10 ++ labelField rc

/-- Format RI (R58): the immediate is split around `rb`. -/
def layRI (op : BitVec 10) (ra rb : Label) (imm10 : BitVec 10) : Word :=
  op ++ labelField ra ++ imm10.extractLsb' 6 4 ++ labelField rb ++ imm10.extractLsb' 0 6

/-- Format II (R58). -/
def layII (op : BitVec 10) (ra : Label) (immA : BitVec 10) (immB : BitVec 6) : Word :=
  op ++ labelField ra ++ immA ++ immB

/-- Format J (R59). -/
def layJ (op : BitVec 10) (imm22 : BitVec 22) : Word := op ++ imm22

/-- Format JR (R59). -/
def layJR (op : BitVec 10) (rb rc : Label) : Word := op ++ 0#10 ++ labelField rb ++ labelField rc

/-- The word the source's row prints for the instruction (R53 to R59, R64). -/
def layout : Instr → Word
  | .load8Imm ra imm8 => layI8 0x001#10 ra imm8
  | .load8Mem ra rb rc => layThree 0x002#10 ra rb rc
  | .load16Imm ra imm16 => layI16 0x003#10 ra imm16
  | .load16Mem ra rb rc => layThree 0x004#10 ra rb rc
  | .load32Mem ra rb rc => layThree 0x005#10 ra rb rc
  | .store8 ra rb rc => layThree 0x006#10 ra rb rc
  | .store16 ra rb rc => layThree 0x007#10 ra rb rc
  | .store32 ra rb rc => layThree 0x008#10 ra rb rc
  | .move ra rc => layREG2 0x009#10 ra rc
  | .addRR ra rb rc => layThree 0x200#10 ra rb rc
  | .addRI ra rb imm10 => layRI 0x201#10 ra rb imm10
  | .subRR ra rb rc => layThree 0x202#10 ra rb rc
  | .subRI ra rb imm10 => layRI 0x203#10 ra rb imm10
  | .subIR ra rb imm10 => layRI 0x204#10 ra rb imm10
  | .bandRR ra rb rc => layThree 0x205#10 ra rb rc
  | .bandRI ra rb imm10 => layRI 0x206#10 ra rb imm10
  | .borRR ra rb rc => layThree 0x206#10 ra rb rc
  | .borRI ra rb imm10 => layRI 0x207#10 ra rb imm10
  | .bnotR ra rc => layREG2 0x208#10 ra rc
  | .bnotI ra imm16 => layI16 0x209#10 ra imm16
  | .bxorRR ra rb rc => layThree 0x20A#10 ra rb rc
  | .bxorRI ra rb imm10 => layRI 0x20B#10 ra rb imm10
  | .rand ra rc => layREG2 0x20C#10 ra rc
  | .ror ra rc => layREG2 0x20D#10 ra rc
  | .rxor ra rc => layREG2 0x20E#10 ra rc
  | .mulRR ra rb rc => layThree 0x20F#10 ra rb rc
  | .mulRI ra rb imm10 => layRI 0x210#10 ra rb imm10
  | .divRR ra rb rc => layThree 0x211#10 ra rb rc
  | .divRI ra rb imm10 => layRI 0x212#10 ra rb imm10
  | .divIR ra rb imm10 => layRI 0x213#10 ra rb imm10
  | .slRR ra rb rc => layThree 0x214#10 ra rb rc
  | .slRI ra rb imm10 => layRI 0x215#10 ra rb imm10
  | .slIR ra rb imm10 => layRI 0x216#10 ra rb imm10
  | .slII ra immA immB => layII 0x217#10 ra immA immB
  | .lrsRR ra rb rc => layThree 0x218#10 ra rb rc
  | .lrsRI ra rb imm10 => layRI 0x219#10 ra rb imm10
  | .lrsIR ra rb imm10 => layRI 0x21A#10 ra rb imm10
  | .lrsII ra immA immB => layII 0x21B#10 ra immA immB
  | .arsRR ra rb rc => layThree 0x21C#10 ra rb rc
  | .arsRI ra rb imm10 => layRI 0x21D#10 ra rb imm10
  | .arsIR ra rb imm10 => layRI 0x21E#10 ra rb imm10
  | .arsII ra immA immB => layII 0x21F#10 ra immA immB
  | .lcsRR ra rb rc => layThree 0x220#10 ra rb rc
  | .lcsRI ra rb imm10 => layRI 0x221#10 ra rb imm10
  | .lcsIR ra rb imm10 => layRI 0x222#10 ra rb imm10
  | .lcsII ra immA immB => layII 0x223#10 ra immA immB
  | .gtRR ra rb rc => layThree 0x240#10 ra rb rc
  | .gtRI ra rb imm10 => layRI 0x241#10 ra rb imm10
  | .eqRR ra rb rc => layThree 0x242#10 ra rb rc
  | .eqRI ra rb imm10 => layRI 0x243#10 ra rb imm10
  | .ltRR ra rb rc => layThree 0x244#10 ra rb rc
  | .ltRI ra rb imm10 => layRI 0x245#10 ra rb imm10
  | .gteRR ra rb rc => layThree 0x246#10 ra rb rc
  | .gteRI ra rb imm10 => layRI 0x247#10 ra rb imm10
  | .lteRR ra rb rc => layThree 0x248#10 ra rb rc
  | .lteRI ra rb imm10 => layRI 0x249#10 ra rb imm10
  | .jmpImm imm22 => layJ 0x300#10 imm22
  | .jmpReg rb rc => layJR 0x301#10 rb rc
  | .ojmpImm ra imm16 => layI16 0x302#10 ra imm16
  | .ojmpReg ra rb rc => layThree 0x303#10 ra rb rc
  | .zjmpImm ra imm16 => layI16 0x304#10 ra imm16
  | .zjmpReg ra rb rc => layThree 0x305#10 ra rb rc

/-- The parameter values give the instruction an encoding (R59, R65): under the defaults every instruction
but BOR_RR has one. -/
def hasEncoding (c : Settings) : Instr → Bool
  | .bandRI _ _ _ => c.opc206 == .bandRI
  | .borRR _ _ _ => c.opc206 == .borRR
  | .ojmpImm _ _ => c.cjmpLayout == .regAt21
  | .ojmpReg _ _ _ => c.cjmpLayout == .regAt21
  | .zjmpImm _ _ => c.cjmpLayout == .regAt21
  | .zjmpReg _ _ _ => c.cjmpLayout == .regAt21
  | _ => true

/-- The encoder under any parameter values. -/
def encodeWith (c : Settings) (i : Instr) : Option Word := if hasEncoding c i then some (layout i) else none

/-- The word of an instruction, `none` where it has no encoding (R65). -/
def encode (i : Instr) : Option Word := encodeWith settings i

end Sys2Proof
end

