-- ==== Sys2Proof/Machine/State.lean ====
section
/-!
DEFINITION. The state of the machine (spec/10_state.md R10): the forty general purpose registers, the program
counter and the memory. %ZERO has no storage (R12). There is nothing else: no flags, no control registers, no
hidden state (R20, R22 to R24). Below it, why a step stops, and the state after reset.
-/
namespace Sys2Proof.Machine

/-- The byte-addressed memory (R30, R31). `map` is the set `Backed` of MEM_MAP, which no instruction changes.
`cells` lists the bytes that differ from `Config.blankByte`, addresses strictly rising. -/
structure Memory where
  map : List Region
  cells : List Host.Cell
deriving DecidableEq, Repr

/-- The architectural state (R10). `gpr[l - 1]` is the register with label `l`, 1 to 40 (R11). -/
structure State where
  gpr : Vector Word 40
  pc : Word
  mem : Memory
deriving DecidableEq, Repr

/-- The model-level faults of R205: terminal, precise, and observed by no program (R204, R213). Each records
the address of the instruction whose step raised it, then its info. -/
inductive Fault where
  /-- F1 (R207): raised by the fetch when `pc` is not a multiple of 4. Safe: the model stops. -/
  | misalignedFetch (pc : Word)
  /-- F2 (R208): raised by the fetch when a byte of `pc .. pc+3` is not backed. Safe: the model stops. -/
  | fetchAccess (pc : Word)
  /-- F3 (R206): raised by the decode for an unassigned opcode, a 1 in a field printed as zero, or a register
  label outside its field's range. Safe: the model stops. -/
  | illegalInstruction (pc insn : Word)
  /-- F5 (R210): raised by DIV_RR, DIV_RI and DIV_IR when the divisor is 0. Safe: the model stops. -/
  | divideByZero (pc : Word)
  /-- F6 (R209): raised by LOAD16_MEM, LOAD32_MEM, STORE16 and STORE32 when the effective address is not a
  multiple of the width. Safe: the model stops. -/
  | misalignedData (pc ea : Word)
  /-- F7 (R208): raised by a load or store when a byte it touches is not backed. Safe: the model stops. -/
  | dataAccess (pc ea : Word)
  /-- F8 (R42, R211): raised by a store into program text, only under CODE_WRITES = refuse. Safe: the model
  stops. -/
  | codeWrite (pc ea : Word)
deriving DecidableEq, Repr

/-- Why the model gives a step no meaning. -/
inductive Refusal where
  /-- Raised by an arm of `exec` whose instruction has no meaning yet; no arm does. Safe: the model stops. -/
  | notModelled (mnemonic : String)
  /-- F9 `Refused` (R205, R211): raised by the decode of opcode 0x206 under OPC206 = refuse and of 0x302 to
  0x305 under CJMP_LAYOUT = refuse. Safe: the model stops. -/
  | declined (pc insn : Word)
deriving DecidableEq, Repr

/-- The outcome of an instruction or a step. -/
abbrev Result := Host.Outcome State Fault Refusal

/-- The machine as it starts when the platform gives the entry point RESET_PC and the memory of MEM_MAP
(R230, R231, R236): `pc` at the entry point, the forty registers at the value of log 1. -/
def State.boot (resetPc : Word) (mem : Memory) : State where
  gpr := Vector.replicate 40 0#32
  pc := resetPc
  mem := mem

/-- The machine right after reset (R25, R230): RESET_PC at its default (log 2), the forty registers at the
value of log 1, every address backed (log 3), no byte listed (log 4). -/
def State.reset : State := State.boot Config.resetPc ⟨Config.resetMap, []⟩

end Sys2Proof.Machine
end

