-- ==== Sys2Proof/Machine/Memory.lean ====
section
/-!
DEFINITION. The memory primitives: one byte read and written, `Backed`, the canonical form, and the values of
16 and 32 bits in the byte order in force (spec/20_memory.md R31, R33, R34).
-/
namespace Sys2Proof.Machine

/-- The byte a list of cells gives an address: `Config.blankByte` where it lists none. -/
def lookupCell (a : Nat) : List Host.Cell → Byte
  | [] => Config.blankByte
  | (k, v) :: r => if k = a then v else lookupCell a r

/-- The list with the byte at `a` replaced: rising addresses stay rising, and a blank byte is not listed. -/
def storeCell (a : Nat) (b : Byte) : List Host.Cell → List Host.Cell
  | [] => if b = Config.blankByte then [] else [(a, b)]
  | (k, v) :: r =>
    if k < a then (k, v) :: storeCell a b r
    else if k = a then (if b = Config.blankByte then r else (a, b) :: r)
    else (if b = Config.blankByte then (k, v) :: r else (a, b) :: (k, v) :: r)

namespace Memory

/-- The address is in `Backed` (R31). -/
def backed (m : Memory) (a : Nat) : Bool := m.map.any (fun r => r.holds a)

/-- The byte at an address: the last one written, or the initial one (R31). -/
def byte (m : Memory) (a : Nat) : Byte := lookupCell a m.cells

/-- The memory with one byte replaced. -/
def setByte (m : Memory) (a : Nat) (b : Byte) : Memory := { m with cells := storeCell a b m.cells }

/-- The map is in canonical form: regions rising, apart, not empty, inside the address space. -/
def mapWf (m : Memory) : Bool :=
  m.map.all (fun r => decide (0 < r.size) && decide (r.base + r.size ≤ Config.addressCount)) &&
    decide (m.map.Pairwise (fun r q => r.base + r.size < q.base))

/-- The canonical form: the map's, addresses strictly rising, no blank byte listed, every listed address
backed. Equal memories are then equal data. -/
def wf (m : Memory) : Bool :=
  m.mapWf && decide (m.cells.Pairwise (fun p q => p.1 < q.1)) &&
    m.cells.all (fun p => decide (p.2 ≠ Config.blankByte) && m.backed p.1)

/-- The byte at a 32-bit address. -/
def read8 (m : Memory) (a : Word) : BitVec 8 := m.byte a.toNat

/-- Two bytes as one value (R33); addresses count modulo 2^32 (R35, `split`). -/
def read16 (e : Endian) (m : Memory) (a : Word) : BitVec 16 :=
  match e with
  | .little => m.read8 (a + 1#32) ++ m.read8 a
  | .big => m.read8 a ++ m.read8 (a + 1#32)

/-- Four bytes as one value (R33). -/
def read32 (e : Endian) (m : Memory) (a : Word) : BitVec 32 :=
  wordOfBytes e (m.read8 a) (m.read8 (a + 1#32)) (m.read8 (a + 2#32)) (m.read8 (a + 3#32))

/-- Write the byte at a 32-bit address. -/
def write8 (m : Memory) (a : Word) (v : BitVec 8) : Memory := m.setByte a.toNat v

/-- Write two bytes (R34). -/
def write16 (e : Endian) (m : Memory) (a : Word) (v : BitVec 16) : Memory :=
  match e with
  | .little => (m.write8 a (v.extractLsb' 0 8)).write8 (a + 1#32) (v.extractLsb' 8 8)
  | .big => (m.write8 a (v.extractLsb' 8 8)).write8 (a + 1#32) (v.extractLsb' 0 8)

/-- Write four bytes (R34). -/
def write32 (e : Endian) (m : Memory) (a : Word) (v : BitVec 32) : Memory :=
  match e with
  | .little => (((m.write8 a (v.extractLsb' 0 8)).write8 (a + 1#32) (v.extractLsb' 8 8)).write8
      (a + 2#32) (v.extractLsb' 16 8)).write8 (a + 3#32) (v.extractLsb' 24 8)
  | .big => (((m.write8 a (v.extractLsb' 24 8)).write8 (a + 1#32) (v.extractLsb' 16 8)).write8
      (a + 2#32) (v.extractLsb' 8 8)).write8 (a + 3#32) (v.extractLsb' 0 8)

/-- Every one of the `n` bytes from `a` is backed (R33, R34, R37). -/
def backedFrom (m : Memory) (a : Word) (n : Nat) : Bool :=
  (List.range n).all (fun i => m.backed (a + BitVec.ofNat 32 i).toNat)

/-- The memory of a program image: the words `w0, w1, …` at `base`, `base + 4`, … (R37), in a given map. -/
def withWords (e : Endian) (m : Memory) (base : Word) : List Word → Memory
  | [] => m
  | w :: ws => withWords e (m.write32 e base w) (base + 4#32) ws

end Memory
end Sys2Proof.Machine
end

