-- ==== Sys2Proof/Machine/Ops.lean ====
section
/-!
DEFINITION. The named operations over registers and memory: reading and writing a register (spec/00_scope.md
R6, spec/10_state.md R12, R13, R15), the sequential advance (R16), raising a fault (spec/60_exceptions.md R204),
the checks of a data access (spec/20_memory.md R35, R36) and the fetch (R37).
-/
namespace Sys2Proof.Machine

/-- `x[l]` (R6): label 0 reads 0 (R12), label 41 reads the address of the executing instruction (R15). -/
def State.reg (s : State) (l : Label) : Word :=
  if l.val = 0 then 0#32
  else if h : l.val ≤ 40 then s.gpr[l.val - 1]'(by omega)
  else s.pc

/-- The registers with `v` in the one labelled `l`. A label that is no target, 0 or 41, writes nothing; no
encoding can name one (R12, R13, R21; log 22). -/
def writeGpr (g : Vector Word 40) (l : Label) (v : Word) : Vector Word 40 :=
  if h : 1 ≤ l.val ∧ l.val ≤ 40 then g.set (l.val - 1) v (by omega) else g

/-- `x[l] <- v` (R6). -/
def State.setReg (s : State) (l : Label) (v : Word) : State := { s with gpr := writeGpr s.gpr l v }

/-- `pc <- target` (R6). -/
def State.setPc (s : State) (target : Word) : State := { s with pc := target }

/-- The state with another memory. -/
def State.setMem (s : State) (m : Memory) : State := { s with mem := m }

/-- `pc <- pc + 4` modulo 2^32 (R16, R17). -/
def State.advance (s : State) : State := s.setPc (s.pc + BitVec.ofNat 32 Config.insnBytes)

/-- `raise F(info)` (R204): the step does not complete, nothing is changed, no later step exists. It is the one
way an instruction or a fetch stops. There is no trap entry (R214) and no return from one (R215). -/
def raise (f : Fault) : Result := .fault f

/-- `x[ra] <- v` and `pc <- pc + 4`: the end of every instruction that writes a register (R16, R88, R105). -/
def writeResult (s : State) (ra : Label) (v : Word) : Result := .next (s.setReg ra v).advance

/-- The first check of an `n`-byte data access at `ea` that fails: alignment (R35, R209), then backing (R36,
R208), in the order of R212. Under MISALIGNED_DATA = split there is no alignment check. -/
def dataFault (c : Settings) (s : State) (ea : Word) (n : Nat) : Option Fault :=
  if c.misalignedData = .fault ∧ ea.toNat % n ≠ 0 then some (.misalignedData s.pc ea)
  else if s.mem.backedFrom ea n then none
  else some (.dataAccess s.pc ea)

/-- A byte of `ea .. ea+n-1` is program text that CODE_WRITES = refuse protects (R42). -/
def writesText (c : Settings) (ea : Word) (n : Nat) : Bool :=
  match c.codeWrites with
  | .visible => false
  | .refuse text => (List.range n).any (fun i => text.any (fun r => r.holds (ea + BitVec.ofNat 32 i).toNat))

/-- The first check of an `n`-byte store at `ea` that fails: those of a data access, then CodeWrite (R212). -/
def storeFault (c : Settings) (s : State) (ea : Word) (n : Nat) : Option Fault :=
  match dataFault c s ea n with
  | some f => some f
  | none => if writesText c ea n then some (.codeWrite s.pc ea) else none

/-- A load of `n` bytes at `ea` into `ra` (R81, R83, R84): the checks, then the value, widened to 32 bits. -/
def loadResult (c : Settings) (s : State) (ra : Label) (ea : Word) (n : Nat) (v : Word) : Result :=
  match dataFault c s ea n with
  | some f => raise f
  | none => writeResult s ra v

/-- A store of `n` bytes at `ea` that leaves the memory `m` (R85 to R87): the checks, then the write; either
all bytes are written or, on a fault, none (R34). -/
def storeResult (c : Settings) (s : State) (ea : Word) (n : Nat) (m : Memory) : Result :=
  match storeFault c s ea n with
  | some f => raise f
  | none => .next (s.setMem m).advance

/-- The fetch at the start of a step (R37): alignment (R207), then backing (R208), then the word. -/
def fetch (s : State) : Except Fault Word :=
  if s.pc.toNat % Config.fetchAlign ≠ 0 then .error (.misalignedFetch s.pc)
  else if s.mem.backedFrom s.pc 4 then .ok (s.mem.read32 settings.endian s.pc)
  else .error (.fetchAccess s.pc)

/-- What a word that does not decode does to the step (R206, R211). -/
def rejectWord (s : State) (w : Word) : DecodeReject → Result
  | .declined => .refused (.declined s.pc w)
  | .unassignedOpcode => raise (.illegalInstruction s.pc w)
  | .nonzeroField => raise (.illegalInstruction s.pc w)
  | .labelRange => raise (.illegalInstruction s.pc w)
  | .truncated => raise (.illegalInstruction s.pc w)

/-- The memory that holds the word `w` at `pc` for the fetch to read. Where the map does not back those four
bytes, the map becomes the whole address space (log 23). -/
def placeWord (m : Memory) (pc w : Word) : Memory :=
  (if m.backedFrom pc 4 then m else { m with map := Config.resetMap }).write32 settings.endian pc w

end Sys2Proof.Machine
end

