-- ==== Sys2Proof/Machine/Operands.lean ====
section
/-!
DEFINITION. The operands of the forms: immediates widened to 32 bits (spec/30_encoding.md R60), the operands
`A` and `B` by form suffix (R61), and the effective address or register jump target (spec/20_memory.md R32).
-/
namespace Sys2Proof.Machine

/-- A narrow value widened to 32 bits (R5: `zext_32`, or `sext_32` under the other setting). -/
def extend (e : Extension) {n : Nat} (v : BitVec n) : Word :=
  match e with
  | .zero => v.setWidth 32
  | .sign => v.signExtend 32

/-- An immediate operand (R60). -/
def immOperand {n : Nat} (v : BitVec n) : Word := extend settings.immExt v

/-- A value loaded by LOAD8 or LOAD16, from the word (R80, R82) or from memory (R81, R83). -/
def loadedValue {n : Nat} (v : BitVec n) : Word := extend settings.loadExt v

/-- The first operand and the second. -/
abbrev Pair := Word × Word

/-- `_RR`: `A = x[rb]`, `B = x[rc]` (R61). -/
def operandsRR (s : State) (rb rc : Label) : Pair := (s.reg rb, s.reg rc)

/-- `_RI`: `A = x[rb]`, `B = zext_32(imm10)` (R61). -/
def operandsRI (s : State) (rb : Label) (imm10 : BitVec 10) : Pair := (s.reg rb, immOperand imm10)

/-- `_IR`: `A = zext_32(imm10)`, `B = x[rb]` (R61). -/
def operandsIR (s : State) (rb : Label) (imm10 : BitVec 10) : Pair := (immOperand imm10, s.reg rb)

/-- `_II`: `A = zext_32(immA)`, `B = zext_32(immB)` (R61). -/
def operandsII (immA : BitVec 10) (immB : BitVec 6) : Pair := (immOperand immA, immOperand immB)

/-- `EA = (x[rb] + x[rc]) mod 2^32` (R32). -/
def effectiveAddress (s : State) (rb rc : Label) : Word := s.reg rb + s.reg rc

end Sys2Proof.Machine
end

