-- ==== Sys2Proof/Machine/Flags.lean ====
section
/-!
DEFINITION. The MACPU has no flags (spec/10_state.md R20). What other machines keep in flags is here a word that
is 0 or 1: the result of a compare (spec/44_branch_ops.md R165, R176), the reductions of a word to one bit
(spec/42_integer_ops.md R119 to R121), and the conditions of OJMP and ZJMP (spec/45_jump_ops.md R188, R190).
-/
namespace Sys2Proof.Machine

/-- 0x00000001 when the relation holds, 0x00000000 when it does not (R165). -/
def truth (b : Bool) : Word := if b then 1#32 else 0#32

/-- The number an order relation compares: `signed(v)`, or the unsigned value under CMP_SIGNED = false (R176). -/
def orderValue (signed : Bool) (v : Word) : Int := if signed then v.toInt else Int.ofNat v.toNat

/-- `A > B` (R166). -/
def isGreater (signed : Bool) (p : Pair) : Bool := decide (orderValue signed p.1 > orderValue signed p.2)

/-- `A = B`, all 32 bits (R168). -/
def isEqual (p : Pair) : Bool := decide (p.1 = p.2)

/-- `A < B` (R170). -/
def isLess (signed : Bool) (p : Pair) : Bool := decide (orderValue signed p.1 < orderValue signed p.2)

/-- `A >= B` (R172). -/
def isGreaterEqual (signed : Bool) (p : Pair) : Bool := decide (orderValue signed p.1 ≥ orderValue signed p.2)

/-- `A <= B` (R174). -/
def isLessEqual (signed : Bool) (p : Pair) : Bool := decide (orderValue signed p.1 ≤ orderValue signed p.2)

/-- The AND of all 32 bits (R119). -/
def reduceAnd (v : Word) : Bool := decide (v = 0xFFFFFFFF#32)

/-- The OR of all 32 bits (R120). -/
def reduceOr (v : Word) : Bool := decide (v ≠ 0#32)

/-- The number of 1 bits. -/
def onesCount (v : Word) : Nat := (List.range 32).countP (fun i => v.getLsbD i)

/-- The XOR of all 32 bits, the parity (R121). -/
def reduceXor (v : Word) : Bool := decide (onesCount v % 2 = 1)

/-- OJMP jumps when the whole register equals 1 (R188). -/
def isOne (v : Word) : Bool := decide (v = 1#32)

/-- ZJMP jumps when the whole register equals 0 (R190). -/
def isZero (v : Word) : Bool := decide (v = 0#32)

end Sys2Proof.Machine
end

