-- ==== Sys2Proof/Machine/Arith.lean ====
section
/-!
DEFINITION. The functions the integer and shift instructions compute on their operands `(A, B)`: arithmetic
modulo 2^32 (spec/42_integer_ops.md R128), division (R127), the bitwise operations, and the four shifts
(spec/43_shift_ops.md R141).
-/
namespace Sys2Proof.Machine

/-- `(A + B) mod 2^32` (R106). -/
def sum (p : Pair) : Word := p.1 + p.2

/-- `(A - B) mod 2^32` (R108). -/
def difference (p : Pair) : Word := p.1 - p.2

/-- The low 32 bits of `A * B` (R122). -/
def product (p : Pair) : Word := p.1 * p.2

/-- `A AND B` (R111). -/
def bitAnd (p : Pair) : Word := p.1 &&& p.2

/-- `A OR B` (R113). -/
def bitOr (p : Pair) : Word := p.1 ||| p.2

/-- `A XOR B` (R117). -/
def bitXor (p : Pair) : Word := p.1 ^^^ p.2

/-- The quotient for a divisor other than 0 (R127): signed, rounded toward zero, modulo 2^32; or unsigned. -/
def quotient (signed : Bool) (p : Pair) : Word :=
  if signed then BitVec.ofInt 32 (p.1.toInt.tdiv p.2.toInt) else BitVec.ofNat 32 (p.1.toNat / p.2.toNat)

/-- The end of a DIV form (R127, R210): a zero divisor raises DivideByZero, or under DIV0 = any leaves a free
value in the target (log 14). -/
def divideResult (c : Settings) (s : State) (ra : Label) (p : Pair) : Result :=
  if p.2 = 0#32 then
    match c.div0 with
    | .fault => raise (.divideByZero s.pc)
    | .any => writeResult s ra (Config.divByZero p.1)
  else writeResult s ra (quotient c.divSigned p)

/-- The number of positions to shift: the whole count, or its value modulo 32 (R141). -/
def shiftCount (a : ShiftAmount) (n : Word) : Nat :=
  match a with
  | .unmasked => n.toNat
  | .mod32 => n.toNat % 32

/-- `SL(v, n)`: zeros enter at bit 0; 0 when n is 32 or more (R141). -/
def shiftLeft (v : Word) (n : Nat) : Word := if n < 32 then v <<< n else 0#32

/-- `LRS(v, n)`: zeros enter at bit 31; 0 when n is 32 or more (R141). -/
def shiftRight (v : Word) (n : Nat) : Word := if n < 32 then v >>> n else 0#32

/-- `ARS(v, n)`: copies of the sign bit enter at bit 31; all of them when n is 31 or more (R141). -/
def shiftRightArith (v : Word) (n : Nat) : Word := v.sshiftRight (min n 31)

/-- `LCS(v, n)`: rotate left by n modulo 32 (R141). -/
def rotateLeft (v : Word) (n : Nat) : Word := v.rotateLeft (n % 32)

/-- SL of the operands: the first is shifted, the second is the count (R140). -/
def slValue (c : Settings) (p : Pair) : Word := shiftLeft p.1 (shiftCount c.shiftAmount p.2)

/-- LRS of the operands (R140). -/
def lrsValue (c : Settings) (p : Pair) : Word := shiftRight p.1 (shiftCount c.shiftAmount p.2)

/-- ARS of the operands (R140). -/
def arsValue (c : Settings) (p : Pair) : Word := shiftRightArith p.1 (shiftCount c.shiftAmount p.2)

/-- LCS of the operands (R140). -/
def lcsValue (c : Settings) (p : Pair) : Word := rotateLeft p.1 (shiftCount c.shiftAmount p.2)

end Sys2Proof.Machine
end

