-- ==== Sys2Proof/Machine/CompareOps.lean ====
section
/-!
DEFINITION. GT, EQ, LT, GTE, LTE, the source's "Branch Operations", none of which branches (spec/44_branch_ops.md R165 to
R176).
-/
namespace Sys2Proof.Machine

/-- GT_RR (R166): `x[ra] <- 1` if `x[rb] > x[rc]` as signed numbers, else 0. -/
def execGtRR (ra rb rc : Label) (s : State) : Result :=
  writeResult s ra (truth (isGreater settings.cmpSigned (operandsRR s rb rc)))

/-- GT_RI (R167): `x[ra] <- 1` if `x[rb] > zext_32(imm10)` as signed numbers, else 0. -/
def execGtRI (ra rb : Label) (imm10 : BitVec 10) (s : State) : Result :=
  writeResult s ra (truth (isGreater settings.cmpSigned (operandsRI s rb imm10)))

/-- EQ_RR (R168): `x[ra] <- 1` if `x[rb] = x[rc]`, else 0. -/
def execEqRR (ra rb rc : Label) (s : State) : Result :=
  writeResult s ra (truth (isEqual (operandsRR s rb rc)))

/-- EQ_RI (R169): `x[ra] <- 1` if `x[rb] = zext_32(imm10)`, else 0. -/
def execEqRI (ra rb : Label) (imm10 : BitVec 10) (s : State) : Result :=
  writeResult s ra (truth (isEqual (operandsRI s rb imm10)))

/-- LT_RR (R170): `x[ra] <- 1` if `x[rb] < x[rc]` as signed numbers, else 0. -/
def execLtRR (ra rb rc : Label) (s : State) : Result :=
  writeResult s ra (truth (isLess settings.cmpSigned (operandsRR s rb rc)))

/-- LT_RI (R171): `x[ra] <- 1` if `x[rb] < zext_32(imm10)` as signed numbers, else 0. -/
def execLtRI (ra rb : Label) (imm10 : BitVec 10) (s : State) : Result :=
  writeResult s ra (truth (isLess settings.cmpSigned (operandsRI s rb imm10)))

/-- GTE_RR (R172): `x[ra] <- 1` if `x[rb] >= x[rc]` as signed numbers, else 0. -/
def execGteRR (ra rb rc : Label) (s : State) : Result :=
  writeResult s ra (truth (isGreaterEqual settings.cmpSigned (operandsRR s rb rc)))

/-- GTE_RI (R173): `x[ra] <- 1` if `x[rb] >= zext_32(imm10)` as signed numbers, else 0. -/
def execGteRI (ra rb : Label) (imm10 : BitVec 10) (s : State) : Result :=
  writeResult s ra (truth (isGreaterEqual settings.cmpSigned (operandsRI s rb imm10)))

/-- LTE_RR (R174): `x[ra] <- 1` if `x[rb] <= x[rc]` as signed numbers, else 0. -/
def execLteRR (ra rb rc : Label) (s : State) : Result :=
  writeResult s ra (truth (isLessEqual settings.cmpSigned (operandsRR s rb rc)))

/-- LTE_RI (R175): `x[ra] <- 1` if `x[rb] <= zext_32(imm10)` as signed numbers, else 0. -/
def execLteRI (ra rb : Label) (imm10 : BitVec 10) (s : State) : Result :=
  writeResult s ra (truth (isLessEqual settings.cmpSigned (operandsRI s rb imm10)))

end Sys2Proof.Machine
end

