-- ==== Sys2Proof/Machine/IntegerOps.lean ====
section
/-!
DEFINITION. ADD, SUB, BAND, BOR, BNOT, BXOR, RAND, ROR, RXOR, MUL, DIV (spec/42_integer_ops.md R105 to R130).
-/
namespace Sys2Proof.Machine

/-- ADD_RR (R106): `x[ra] <- (x[rb] + x[rc]) mod 2^32`. -/
def execAddRR (ra rb rc : Label) (s : State) : Result := writeResult s ra (sum (operandsRR s rb rc))

/-- ADD_RI (R107): `x[ra] <- (x[rb] + zext_32(imm10)) mod 2^32`. -/
def execAddRI (ra rb : Label) (imm10 : BitVec 10) (s : State) : Result :=
  writeResult s ra (sum (operandsRI s rb imm10))

/-- SUB_RR (R108): `x[ra] <- (x[rb] - x[rc]) mod 2^32`. -/
def execSubRR (ra rb rc : Label) (s : State) : Result := writeResult s ra (difference (operandsRR s rb rc))

/-- SUB_RI (R109): `x[ra] <- (x[rb] - zext_32(imm10)) mod 2^32`. -/
def execSubRI (ra rb : Label) (imm10 : BitVec 10) (s : State) : Result :=
  writeResult s ra (difference (operandsRI s rb imm10))

/-- SUB_IR (R110): `x[ra] <- (zext_32(imm10) - x[rb]) mod 2^32`. -/
def execSubIR (ra rb : Label) (imm10 : BitVec 10) (s : State) : Result :=
  writeResult s ra (difference (operandsIR s rb imm10))

/-- BAND_RR (R111): `x[ra] <- x[rb] AND x[rc]`. -/
def execBandRR (ra rb rc : Label) (s : State) : Result := writeResult s ra (bitAnd (operandsRR s rb rc))

/-- BAND_RI (R112): `x[ra] <- x[rb] AND zext_32(imm10)`. -/
def execBandRI (ra rb : Label) (imm10 : BitVec 10) (s : State) : Result :=
  writeResult s ra (bitAnd (operandsRI s rb imm10))

/-- BOR_RR (R113): `x[ra] <- x[rb] OR x[rc]`. -/
def execBorRR (ra rb rc : Label) (s : State) : Result := writeResult s ra (bitOr (operandsRR s rb rc))

/-- BOR_RI (R114): `x[ra] <- x[rb] OR zext_32(imm10)`. -/
def execBorRI (ra rb : Label) (imm10 : BitVec 10) (s : State) : Result :=
  writeResult s ra (bitOr (operandsRI s rb imm10))

/-- BNOT_R (R115): `x[ra] <- NOT x[rc]`. -/
def execBnotR (ra rc : Label) (s : State) : Result := writeResult s ra (~~~(s.reg rc))

/-- BNOT_I (R116): `x[ra] <- NOT zext_32(imm16)`. -/
def execBnotI (ra : Label) (imm16 : BitVec 16) (s : State) : Result :=
  writeResult s ra (~~~(immOperand imm16))

/-- BXOR_RR (R117): `x[ra] <- x[rb] XOR x[rc]`. -/
def execBxorRR (ra rb rc : Label) (s : State) : Result := writeResult s ra (bitXor (operandsRR s rb rc))

/-- BXOR_RI (R118): `x[ra] <- x[rb] XOR zext_32(imm10)`. -/
def execBxorRI (ra rb : Label) (imm10 : BitVec 10) (s : State) : Result :=
  writeResult s ra (bitXor (operandsRI s rb imm10))

/-- RAND (R119): `x[ra] <- 1` if all 32 bits of `x[rc]` are 1, else 0. -/
def execRand (ra rc : Label) (s : State) : Result := writeResult s ra (truth (reduceAnd (s.reg rc)))

/-- ROR (R120): `x[ra] <- 1` if any bit of `x[rc]` is 1, else 0. -/
def execRor (ra rc : Label) (s : State) : Result := writeResult s ra (truth (reduceOr (s.reg rc)))

/-- RXOR (R121): `x[ra] <-` the number of 1 bits of `x[rc]` modulo 2. -/
def execRxor (ra rc : Label) (s : State) : Result := writeResult s ra (truth (reduceXor (s.reg rc)))

/-- MUL_RR (R122): `x[ra] <- (x[rb] * x[rc]) mod 2^32`. -/
def execMulRR (ra rb rc : Label) (s : State) : Result := writeResult s ra (product (operandsRR s rb rc))

/-- MUL_RI (R123): `x[ra] <- (x[rb] * zext_32(imm10)) mod 2^32`. -/
def execMulRI (ra rb : Label) (imm10 : BitVec 10) (s : State) : Result :=
  writeResult s ra (product (operandsRI s rb imm10))

/-- DIV_RR (R124): `x[ra] <- Div(x[rb], x[rc])`. -/
def execDivRR (ra rb rc : Label) (s : State) : Result := divideResult settings s ra (operandsRR s rb rc)

/-- DIV_RI (R125): `x[ra] <- Div(x[rb], zext_32(imm10))`. -/
def execDivRI (ra rb : Label) (imm10 : BitVec 10) (s : State) : Result :=
  divideResult settings s ra (operandsRI s rb imm10)

/-- DIV_IR (R126): `x[ra] <- Div(zext_32(imm10), x[rb])`. -/
def execDivIR (ra rb : Label) (imm10 : BitVec 10) (s : State) : Result :=
  divideResult settings s ra (operandsIR s rb imm10)

end Sys2Proof.Machine
end

