-- ==== Sys2Proof/Machine/JumpOps.lean ====
section
/-!
DEFINITION. JMP, OJMP, ZJMP, the only instructions that assign %PC (spec/45_jump_ops.md R185 to R194).
-/
namespace Sys2Proof.Machine

/-- A taken jump: `pc <- T`, and nothing else changes (R185). -/
def jumpTo (s : State) (target : Word) : Result := .next (s.setPc target)

/-- A conditional jump: `pc <- T` when the condition holds, else `pc <- pc + 4` (R185 (d)). -/
def jumpIf (s : State) (b : Bool) (target : Word) : Result := if b then jumpTo s target else .next s.advance

/-- JMP_IMM (R186): `pc <- zext_32(imm22)`. -/
def execJmpImm (imm22 : BitVec 22) (s : State) : Result := jumpTo s (immOperand imm22)

/-- JMP_REG (R187): `pc <- (x[rb] + x[rc]) mod 2^32`. -/
def execJmpReg (rb rc : Label) (s : State) : Result := jumpTo s (effectiveAddress s rb rc)

/-- OJMP_IMM (R188): jumps to `zext_32(imm16)` when `x[ra] = 1`. -/
def execOjmpImm (ra : Label) (imm16 : BitVec 16) (s : State) : Result :=
  jumpIf s (isOne (s.reg ra)) (immOperand imm16)

/-- OJMP_REG (R189): jumps to `(x[rb] + x[rc]) mod 2^32` when `x[ra] = 1`. -/
def execOjmpReg (ra rb rc : Label) (s : State) : Result :=
  jumpIf s (isOne (s.reg ra)) (effectiveAddress s rb rc)

/-- ZJMP_IMM (R190): jumps to `zext_32(imm16)` when `x[ra] = 0`. -/
def execZjmpImm (ra : Label) (imm16 : BitVec 16) (s : State) : Result :=
  jumpIf s (isZero (s.reg ra)) (immOperand imm16)

/-- ZJMP_REG (R191): jumps to `(x[rb] + x[rc]) mod 2^32` when `x[ra] = 0`. -/
def execZjmpReg (ra rb rc : Label) (s : State) : Result :=
  jumpIf s (isZero (s.reg ra)) (effectiveAddress s rb rc)

end Sys2Proof.Machine
end

