-- ==== Sys2Proof/Machine/MemoryOps.lean ====
section
/-!
DEFINITION. LOAD8, LOAD16, LOAD32, STORE8, STORE16, STORE32 (spec/40_memory_ops.md R80 to R89).
-/
namespace Sys2Proof.Machine

/-- LOAD8_IMM (R80): `x[ra] <- zext_32(imm8)`. -/
def execLoad8Imm (ra : Label) (imm8 : BitVec 8) (s : State) : Result := writeResult s ra (loadedValue imm8)

/-- LOAD8_MEM (R81): `x[ra] <- zext_32(MemRead(EA, 1))`. -/
def execLoad8Mem (ra rb rc : Label) (s : State) : Result :=
  let ea := effectiveAddress s rb rc
  loadResult settings s ra ea 1 (loadedValue (s.mem.read8 ea))

/-- LOAD16_IMM (R82): `x[ra] <- zext_32(imm16)`. -/
def execLoad16Imm (ra : Label) (imm16 : BitVec 16) (s : State) : Result :=
  writeResult s ra (loadedValue imm16)

/-- LOAD16_MEM (R83): `x[ra] <- zext_32(MemRead(EA, 2))`. -/
def execLoad16Mem (ra rb rc : Label) (s : State) : Result :=
  let ea := effectiveAddress s rb rc
  loadResult settings s ra ea 2 (loadedValue (Memory.read16 settings.endian s.mem ea))

/-- LOAD32_MEM (R84): `x[ra] <- MemRead(EA, 4)`. -/
def execLoad32Mem (ra rb rc : Label) (s : State) : Result :=
  let ea := effectiveAddress s rb rc
  loadResult settings s ra ea 4 (Memory.read32 settings.endian s.mem ea)

/-- STORE8 (R85): `MemWrite(EA, 1, x[ra][7:0])`. -/
def execStore8 (ra rb rc : Label) (s : State) : Result :=
  let ea := effectiveAddress s rb rc
  storeResult settings s ea 1 (s.mem.write8 ea ((s.reg ra).extractLsb' 0 8))

/-- STORE16 (R86): `MemWrite(EA, 2, x[ra][15:0])`. -/
def execStore16 (ra rb rc : Label) (s : State) : Result :=
  let ea := effectiveAddress s rb rc
  storeResult settings s ea 2 (Memory.write16 settings.endian s.mem ea ((s.reg ra).extractLsb' 0 16))

/-- STORE32 (R87): `MemWrite(EA, 4, x[ra])`. -/
def execStore32 (ra rb rc : Label) (s : State) : Result :=
  let ea := effectiveAddress s rb rc
  storeResult settings s ea 4 (Memory.write32 settings.endian s.mem ea (s.reg ra))

end Sys2Proof.Machine
end

