-- ==== Sys2Proof/Machine/RegisterOps.lean ====
section
/-!
DEFINITION. MOVE (spec/41_register_ops.md R100, R101).
-/
namespace Sys2Proof.Machine

/-- MOVE (R100): `x[ra] <- x[rc]`. -/
def execMove (ra rc : Label) (s : State) : Result := writeResult s ra (s.reg rc)

end Sys2Proof.Machine
end

