-- ==== Sys2Proof/Machine/ShiftOps.lean ====
section
/-!
DEFINITION. SL, LRS, ARS, LCS (spec/43_shift_ops.md R140 to R158).
-/
namespace Sys2Proof.Machine

/-- SL_RR (R142): `x[ra] <- SL(x[rb], x[rc])`. -/
def execSlRR (ra rb rc : Label) (s : State) : Result :=
  writeResult s ra (slValue settings (operandsRR s rb rc))

/-- SL_RI (R143): `x[ra] <- SL(x[rb], zext_32(imm10))`. -/
def execSlRI (ra rb : Label) (imm10 : BitVec 10) (s : State) : Result :=
  writeResult s ra (slValue settings (operandsRI s rb imm10))

/-- SL_IR (R144): `x[ra] <- SL(zext_32(imm10), x[rb])`. -/
def execSlIR (ra rb : Label) (imm10 : BitVec 10) (s : State) : Result :=
  writeResult s ra (slValue settings (operandsIR s rb imm10))

/-- SL_II (R145): `x[ra] <- SL(zext_32(immA), zext_32(immB))`. -/
def execSlII (ra : Label) (immA : BitVec 10) (immB : BitVec 6) (s : State) : Result :=
  writeResult s ra (slValue settings (operandsII immA immB))

/-- LRS_RR (R146): `x[ra] <- LRS(x[rb], x[rc])`. -/
def execLrsRR (ra rb rc : Label) (s : State) : Result :=
  writeResult s ra (lrsValue settings (operandsRR s rb rc))

/-- LRS_RI (R147): `x[ra] <- LRS(x[rb], zext_32(imm10))`. -/
def execLrsRI (ra rb : Label) (imm10 : BitVec 10) (s : State) : Result :=
  writeResult s ra (lrsValue settings (operandsRI s rb imm10))

/-- LRS_IR (R148): `x[ra] <- LRS(zext_32(imm10), x[rb])`. -/
def execLrsIR (ra rb : Label) (imm10 : BitVec 10) (s : State) : Result :=
  writeResult s ra (lrsValue settings (operandsIR s rb imm10))

/-- LRS_II (R149): `x[ra] <- LRS(zext_32(immA), zext_32(immB))`. -/
def execLrsII (ra : Label) (immA : BitVec 10) (immB : BitVec 6) (s : State) : Result :=
  writeResult s ra (lrsValue settings (operandsII immA immB))

/-- ARS_RR (R150): `x[ra] <- ARS(x[rb], x[rc])`. -/
def execArsRR (ra rb rc : Label) (s : State) : Result :=
  writeResult s ra (arsValue settings (operandsRR s rb rc))

/-- ARS_RI (R151): `x[ra] <- ARS(x[rb], zext_32(imm10))`. -/
def execArsRI (ra rb : Label) (imm10 : BitVec 10) (s : State) : Result :=
  writeResult s ra (arsValue settings (operandsRI s rb imm10))

/-- ARS_IR (R152): `x[ra] <- ARS(zext_32(imm10), x[rb])`. -/
def execArsIR (ra rb : Label) (imm10 : BitVec 10) (s : State) : Result :=
  writeResult s ra (arsValue settings (operandsIR s rb imm10))

/-- ARS_II (R153): `x[ra] <- ARS(zext_32(immA), zext_32(immB))`. -/
def execArsII (ra : Label) (immA : BitVec 10) (immB : BitVec 6) (s : State) : Result :=
  writeResult s ra (arsValue settings (operandsII immA immB))

/-- LCS_RR (R154): `x[ra] <- LCS(x[rb], x[rc])`. -/
def execLcsRR (ra rb rc : Label) (s : State) : Result :=
  writeResult s ra (lcsValue settings (operandsRR s rb rc))

/-- LCS_RI (R155): `x[ra] <- LCS(x[rb], zext_32(imm10))`. -/
def execLcsRI (ra rb : Label) (imm10 : BitVec 10) (s : State) : Result :=
  writeResult s ra (lcsValue settings (operandsRI s rb imm10))

/-- LCS_IR (R156): `x[ra] <- LCS(zext_32(imm10), x[rb])`. -/
def execLcsIR (ra rb : Label) (imm10 : BitVec 10) (s : State) : Result :=
  writeResult s ra (lcsValue settings (operandsIR s rb imm10))

/-- LCS_II (R157): `x[ra] <- LCS(zext_32(immA), zext_32(immB))`. -/
def execLcsII (ra : Label) (immA : BitVec 10) (immB : BitVec 6) (s : State) : Result :=
  writeResult s ra (lcsValue settings (operandsII immA immB))

end Sys2Proof.Machine
end

