-- ==== Sys2Proof/Machine/Dispatch.lean ====
section
/-!
DEFINITION. The meaning of each instruction: one arm per constructor (spec/30_encoding.md R64).
-/
namespace Sys2Proof.Machine

def exec (i : Instr) (s : State) : Host.Outcome State Fault Refusal :=
  match i with
  | .load8Imm ra imm8 => Sys2Proof.Machine.execLoad8Imm ra imm8 s
  | .load8Mem ra rb rc => Sys2Proof.Machine.execLoad8Mem ra rb rc s
  | .load16Imm ra imm16 => Sys2Proof.Machine.execLoad16Imm ra imm16 s
  | .load16Mem ra rb rc => Sys2Proof.Machine.execLoad16Mem ra rb rc s
  | .load32Mem ra rb rc => Sys2Proof.Machine.execLoad32Mem ra rb rc s
  | .store8 ra rb rc => Sys2Proof.Machine.execStore8 ra rb rc s
  | .store16 ra rb rc => Sys2Proof.Machine.execStore16 ra rb rc s
  | .store32 ra rb rc => Sys2Proof.Machine.execStore32 ra rb rc s
  | .move ra rc => Sys2Proof.Machine.execMove ra rc s
  | .addRR ra rb rc => Sys2Proof.Machine.execAddRR ra rb rc s
  | .addRI ra rb imm10 => Sys2Proof.Machine.execAddRI ra rb imm10 s
  | .subRR ra rb rc => Sys2Proof.Machine.execSubRR ra rb rc s
  | .subRI ra rb imm10 => Sys2Proof.Machine.execSubRI ra rb imm10 s
  | .subIR ra rb imm10 => Sys2Proof.Machine.execSubIR ra rb imm10 s
  | .bandRR ra rb rc => Sys2Proof.Machine.execBandRR ra rb rc s
  | .bandRI ra rb imm10 => Sys2Proof.Machine.execBandRI ra rb imm10 s
  | .borRR ra rb rc => Sys2Proof.Machine.execBorRR ra rb rc s
  | .borRI ra rb imm10 => Sys2Proof.Machine.execBorRI ra rb imm10 s
  | .bnotR ra rc => Sys2Proof.Machine.execBnotR ra rc s
  | .bnotI ra imm16 => Sys2Proof.Machine.execBnotI ra imm16 s
  | .bxorRR ra rb rc => Sys2Proof.Machine.execBxorRR ra rb rc s
  | .bxorRI ra rb imm10 => Sys2Proof.Machine.execBxorRI ra rb imm10 s
  | .rand ra rc => Sys2Proof.Machine.execRand ra rc s
  | .ror ra rc => Sys2Proof.Machine.execRor ra rc s
  | .rxor ra rc => Sys2Proof.Machine.execRxor ra rc s
  | .mulRR ra rb rc => Sys2Proof.Machine.execMulRR ra rb rc s
  | .mulRI ra rb imm10 => Sys2Proof.Machine.execMulRI ra rb imm10 s
  | .divRR ra rb rc => Sys2Proof.Machine.execDivRR ra rb rc s
  | .divRI ra rb imm10 => Sys2Proof.Machine.execDivRI ra rb imm10 s
  | .divIR ra rb imm10 => Sys2Proof.Machine.execDivIR ra rb imm10 s
  | .slRR ra rb rc => Sys2Proof.Machine.execSlRR ra rb rc s
  | .slRI ra rb imm10 => Sys2Proof.Machine.execSlRI ra rb imm10 s
  | .slIR ra rb imm10 => Sys2Proof.Machine.execSlIR ra rb imm10 s
  | .slII ra immA immB => Sys2Proof.Machine.execSlII ra immA immB s
  | .lrsRR ra rb rc => Sys2Proof.Machine.execLrsRR ra rb rc s
  | .lrsRI ra rb imm10 => Sys2Proof.Machine.execLrsRI ra rb imm10 s
  | .lrsIR ra rb imm10 => Sys2Proof.Machine.execLrsIR ra rb imm10 s
  | .lrsII ra immA immB => Sys2Proof.Machine.execLrsII ra immA immB s
  | .arsRR ra rb rc => Sys2Proof.Machine.execArsRR ra rb rc s
  | .arsRI ra rb imm10 => Sys2Proof.Machine.execArsRI ra rb imm10 s
  | .arsIR ra rb imm10 => Sys2Proof.Machine.execArsIR ra rb imm10 s
  | .arsII ra immA immB => Sys2Proof.Machine.execArsII ra immA immB s
  | .lcsRR ra rb rc => Sys2Proof.Machine.execLcsRR ra rb rc s
  | .lcsRI ra rb imm10 => Sys2Proof.Machine.execLcsRI ra rb imm10 s
  | .lcsIR ra rb imm10 => Sys2Proof.Machine.execLcsIR ra rb imm10 s
  | .lcsII ra immA immB => Sys2Proof.Machine.execLcsII ra immA immB s
  | .gtRR ra rb rc => Sys2Proof.Machine.execGtRR ra rb rc s
  | .gtRI ra rb imm10 => Sys2Proof.Machine.execGtRI ra rb imm10 s
  | .eqRR ra rb rc => Sys2Proof.Machine.execEqRR ra rb rc s
  | .eqRI ra rb imm10 => Sys2Proof.Machine.execEqRI ra rb imm10 s
  | .ltRR ra rb rc => Sys2Proof.Machine.execLtRR ra rb rc s
  | .ltRI ra rb imm10 => Sys2Proof.Machine.execLtRI ra rb imm10 s
  | .gteRR ra rb rc => Sys2Proof.Machine.execGteRR ra rb rc s
  | .gteRI ra rb imm10 => Sys2Proof.Machine.execGteRI ra rb imm10 s
  | .lteRR ra rb rc => Sys2Proof.Machine.execLteRR ra rb rc s
  | .lteRI ra rb imm10 => Sys2Proof.Machine.execLteRI ra rb imm10 s
  | .jmpImm imm22 => Sys2Proof.Machine.execJmpImm imm22 s
  | .jmpReg rb rc => Sys2Proof.Machine.execJmpReg rb rc s
  | .ojmpImm ra imm16 => Sys2Proof.Machine.execOjmpImm ra imm16 s
  | .ojmpReg ra rb rc => Sys2Proof.Machine.execOjmpReg ra rb rc s
  | .zjmpImm ra imm16 => Sys2Proof.Machine.execZjmpImm ra imm16 s
  | .zjmpReg ra rb rc => Sys2Proof.Machine.execZjmpReg ra rb rc s

end Sys2Proof.Machine
end

