-- ==== Sys2Proof/Machine/Step.lean ====
section
/-!
DEFINITION. One step of the processor (spec/70_reset_and_hazards.md R235): fetch, decode, execute.
-/
namespace Sys2Proof.Machine

/-- One step (R235): the fetch may fault, the decode may reject the word, the instruction runs. -/
def step (s : State) : Host.Outcome State Fault Refusal :=
  match fetch s with
  | .error f => raise f
  | .ok w =>
    match decode w with
    | .ok i => exec i s
    | .error r => rejectWord s w r

/-- The state with an instruction's bits stored where the next step fetches, at `pc` (log 5). -/
def State.withFetchWord (s : State) (nbits w : Nat) : State :=
  s.setMem (placeWord s.mem s.pc (BitVec.ofNat 32 (w % 2 ^ nbits)))

end Sys2Proof.Machine
end

