-- ==== Sys2Proof/Machine/Assembler.lean ====
section
/-!
DEFINITION. The assembler syntax as far as the source shows it (spec/30_encoding.md R70 to R75): assembly
statements, the instruction and the word each stands for, the statement of an instruction, and statements as
text.
-/
namespace Sys2Proof.Machine

/-- The thirty mnemonics (R2, R73). -/
inductive Mnemonic where
  | load8 | load16 | load32 | store8 | store16 | store32 | move | add | sub | band
  | bor | bnot | bxor | rand | ror | rxor | mul | div | sl | lrs
  | ars | lcs | gt | eq | lt | gte | lte | jmp | ojmp | zjmp
deriving DecidableEq, Repr

/-- An operand of a statement (R70). -/
inductive Operand where
  /-- a register, `%A1` -/
  | reg (l : Label)
  /-- an immediate number -/
  | num (n : Nat)
  /-- a register expression in brackets, `[%r1]` or `[%r1 + %r2]` -/
  | memReg (base : Label) (index : Option Label)
  /-- an immediate address in brackets, `[223]` -/
  | memNum (n : Nat)
  /-- a symbolic name, the LABEL of R72; how a name is spelt, see `parseOperand` -/
  | symbol (name : String)
deriving DecidableEq, Repr

/-- An assembly statement: a mnemonic and its operands in the order they are written (R70, R73). -/
structure Statement where
  mnemonic : Mnemonic
  operands : List Operand
deriving DecidableEq, Repr

/-- The spelling of the mnemonics, in capital letters (R70). -/
def mnemonicTable : List (Mnemonic × String) :=
  [(.load8, "LOAD8"), (.load16, "LOAD16"), (.load32, "LOAD32"), (.store8, "STORE8"), (.store16, "STORE16"), (.store32, "STORE32"),
   (.move, "MOVE"), (.add, "ADD"), (.sub, "SUB"), (.band, "BAND"), (.bor, "BOR"), (.bnot, "BNOT"),
   (.bxor, "BXOR"), (.rand, "RAND"), (.ror, "ROR"), (.rxor, "RXOR"), (.mul, "MUL"), (.div, "DIV"),
   (.sl, "SL"), (.lrs, "LRS"), (.ars, "ARS"), (.lcs, "LCS"), (.gt, "GT"), (.eq, "EQ"),
   (.lt, "LT"), (.gte, "GTE"), (.lte, "LTE"), (.jmp, "JMP"), (.ojmp, "OJMP"), (.zjmp, "ZJMP")]

/-- The number as an immediate field of `w` bits; a number that does not fit is rejected (R75). -/
def fits (w : Nat) (n : Nat) : Option (BitVec w) := if n < 2 ^ w then some (BitVec.ofNat w n) else none

/-- The index label of an address operand; label 0 stands for an absent index (R32, R73). -/
def indexLabel (x : Option Label) : Label := x.getD Label.zero

/-- `LOAD8 source, %r`, with an immediate or an address as the source (R73). -/
def loadForm (ops : List Operand) (imm : Option (Nat → Label → Option Instr))
    (mem : Label → Label → Label → Instr) : Option Instr :=
  match ops with
  | [.num n, .reg r] => imm.bind (fun f => f n r)
  | [.memReg b x, .reg r] => some (mem r b (indexLabel x))
  | _ => none

/-- `STORE8 %r, [address]` (R73). -/
def storeForm (ops : List Operand) (mk : Label → Label → Label → Instr) : Option Instr :=
  match ops with
  | [.reg r, .memReg b x] => some (mk r b (indexLabel x))
  | _ => none

/-- `MOVE target, source`: the one instruction with its target first (R73, R100). -/
def moveForm (ops : List Operand) : Option Instr :=
  match ops with
  | [.reg t, .reg v] => some (.move t v)
  | _ => none

/-- `RAND %r, %rrslt` (R73). -/
def twoForm (ops : List Operand) (mk : Label → Label → Instr) : Option Instr :=
  match ops with
  | [.reg v, .reg t] => some (mk t v)
  | _ => none

/-- `BNOT A, %rrslt` (R73). -/
def bnotForm (ops : List Operand) : Option Instr :=
  match ops with
  | [.reg v, .reg t] => some (.bnotR t v)
  | [.num n, .reg t] => (fits 16 n).map (fun v => .bnotI t v)
  | _ => none

/-- `ADD A, B, %rrslt`: the opcode is chosen from the kinds of the operands (R73). -/
def three (ops : List Operand) (rr : Label → Label → Label → Instr)
    (ri ir : Option (Label → Label → BitVec 10 → Instr))
    (ii : Option (Label → BitVec 10 → BitVec 6 → Instr)) : Option Instr :=
  match ops with
  | [.reg a, .reg b, .reg t] => some (rr t a b)
  | [.reg a, .num n, .reg t] => ri.bind (fun f => (fits 10 n).map (fun v => f t a v))
  | [.num n, .reg b, .reg t] => ir.bind (fun f => (fits 10 n).map (fun v => f t b v))
  | [.num n, .num k, .reg t] =>
    ii.bind (fun f => (fits 10 n).bind (fun v => (fits 6 k).map (fun u => f t v u)))
  | _ => none

/-- The address a symbolic name stands for: the absolute byte address of the instruction it marks (R72). How a
name is given its address the source does not show: here by a list, of which the first entry counts, and a name
without an entry is refused (DESIGN CHOICE, log 25). -/
def symbolAddress (symbols : List (String × Nat)) (name : String) : Option Nat := symbols.lookup name

/-- `JMP [223]`, `JMP LABEL`, `JMP [%r1 + %r2]` (R72, R73). -/
def jumpForm (symbols : List (String × Nat)) (ops : List Operand) : Option Instr :=
  match ops with
  | [.memNum n] => (fits 22 n).map (fun v => .jmpImm v)
  | [.symbol y] => (symbolAddress symbols y).bind (fun n => (fits 22 n).map (fun v => .jmpImm v))
  | [.memReg b x] => some (.jmpReg b (indexLabel x))
  | _ => none

/-- `OJMP %r, [target]` and `ZJMP %r, [target]` (R73, R188 to R191). That they also take a symbolic name in place
of the bracketed immediate address, `OJMP %r, LABEL`, is the model's own (DESIGN CHOICE, log 25): R72 shows the name
in JMP only, and the example "JMP LABEL" in the tables of OJMP and ZJMP is JMP's own left in (C11). -/
def condJumpForm (symbols : List (String × Nat)) (ops : List Operand) (imm : Label → BitVec 16 → Instr)
    (reg : Label → Label → Label → Instr) : Option Instr :=
  match ops with
  | [.reg r, .memNum n] => (fits 16 n).map (fun v => imm r v)
  | [.reg r, .symbol y] => (symbolAddress symbols y).bind (fun n => (fits 16 n).map (fun v => imm r v))
  | [.reg r, .memReg b x] => some (reg r b (indexLabel x))
  | _ => none

/-- The instruction a mnemonic with these operands names, whatever its labels' ranges. -/
def formOf (symbols : List (String × Nat)) (m : Mnemonic) (ops : List Operand) : Option Instr :=
  match m with
  | .load8 => loadForm ops (some (fun n r => (fits 8 n).map (fun v => .load8Imm r v))) .load8Mem
  | .load16 => loadForm ops (some (fun n r => (fits 16 n).map (fun v => .load16Imm r v))) .load16Mem
  | .load32 => loadForm ops none .load32Mem
  | .store8 => storeForm ops .store8
  | .store16 => storeForm ops .store16
  | .store32 => storeForm ops .store32
  | .move => moveForm ops
  | .add => three ops .addRR (some .addRI) none none
  | .sub => three ops .subRR (some .subRI) (some .subIR) none
  | .band => three ops .bandRR (some .bandRI) none none
  | .bor => three ops .borRR (some .borRI) none none
  | .bnot => bnotForm ops
  | .bxor => three ops .bxorRR (some .bxorRI) none none
  | .rand => twoForm ops .rand
  | .ror => twoForm ops .ror
  | .rxor => twoForm ops .rxor
  | .mul => three ops .mulRR (some .mulRI) none none
  | .div => three ops .divRR (some .divRI) (some .divIR) none
  | .sl => three ops .slRR (some .slRI) (some .slIR) (some .slII)
  | .lrs => three ops .lrsRR (some .lrsRI) (some .lrsIR) (some .lrsII)
  | .ars => three ops .arsRR (some .arsRI) (some .arsIR) (some .arsII)
  | .lcs => three ops .lcsRR (some .lcsRI) (some .lcsIR) (some .lcsII)
  | .gt => three ops .gtRR (some .gtRI) none none
  | .eq => three ops .eqRR (some .eqRI) none none
  | .lt => three ops .ltRR (some .ltRI) none none
  | .gte => three ops .gteRR (some .gteRI) none none
  | .lte => three ops .lteRR (some .lteRI) none none
  | .jmp => jumpForm symbols ops
  | .ojmp => condJumpForm symbols ops .ojmpImm .ojmpReg
  | .zjmp => condJumpForm symbols ops .zjmpImm .zjmpReg

/-- The instruction a statement stands for: its labels in the ranges of their fields (R62). -/
def assemble (symbols : List (String × Nat)) (st : Statement) : Option Instr :=
  match formOf symbols st.mnemonic st.operands with
  | some i => if i.wf then some i else none
  | none => none

/-- The word a statement assembles to; `none` where the assembler must refuse it (R65, R75). -/
def assembleWord (symbols : List (String × Nat)) (st : Statement) : Option Word :=
  (assemble symbols st).bind encode

/-! ## The statement of an instruction -/

/-- `[%r1]`, or `[%r1 + %r2]` when the index is not %ZERO (R32). -/
def memOperand (rb rc : Label) : Operand := .memReg rb (if rc.val = 0 then none else some rc)

/-- The statement of an instruction, its operands in the order of R73. -/
def statementOf : Instr → Statement
  | .load8Imm ra imm8 => ⟨.load8, [.num imm8.toNat, .reg ra]⟩
  | .load8Mem ra rb rc => ⟨.load8, [memOperand rb rc, .reg ra]⟩
  | .load16Imm ra imm16 => ⟨.load16, [.num imm16.toNat, .reg ra]⟩
  | .load16Mem ra rb rc => ⟨.load16, [memOperand rb rc, .reg ra]⟩
  | .load32Mem ra rb rc => ⟨.load32, [memOperand rb rc, .reg ra]⟩
  | .store8 ra rb rc => ⟨.store8, [.reg ra, memOperand rb rc]⟩
  | .store16 ra rb rc => ⟨.store16, [.reg ra, memOperand rb rc]⟩
  | .store32 ra rb rc => ⟨.store32, [.reg ra, memOperand rb rc]⟩
  | .move ra rc => ⟨.move, [.reg ra, .reg rc]⟩
  | .addRR ra rb rc => ⟨.add, [.reg rb, .reg rc, .reg ra]⟩
  | .addRI ra rb imm10 => ⟨.add, [.reg rb, .num imm10.toNat, .reg ra]⟩
  | .subRR ra rb rc => ⟨.sub, [.reg rb, .reg rc, .reg ra]⟩
  | .subRI ra rb imm10 => ⟨.sub, [.reg rb, .num imm10.toNat, .reg ra]⟩
  | .subIR ra rb imm10 => ⟨.sub, [.num imm10.toNat, .reg rb, .reg ra]⟩
  | .bandRR ra rb rc => ⟨.band, [.reg rb, .reg rc, .reg ra]⟩
  | .bandRI ra rb imm10 => ⟨.band, [.reg rb, .num imm10.toNat, .reg ra]⟩
  | .borRR ra rb rc => ⟨.bor, [.reg rb, .reg rc, .reg ra]⟩
  | .borRI ra rb imm10 => ⟨.bor, [.reg rb, .num imm10.toNat, .reg ra]⟩
  | .bnotR ra rc => ⟨.bnot, [.reg rc, .reg ra]⟩
  | .bnotI ra imm16 => ⟨.bnot, [.num imm16.toNat, .reg ra]⟩
  | .bxorRR ra rb rc => ⟨.bxor, [.reg rb, .reg rc, .reg ra]⟩
  | .bxorRI ra rb imm10 => ⟨.bxor, [.reg rb, .num imm10.toNat, .reg ra]⟩
  | .rand ra rc => ⟨.rand, [.reg rc, .reg ra]⟩
  | .ror ra rc => ⟨.ror, [.reg rc, .reg ra]⟩
  | .rxor ra rc => ⟨.rxor, [.reg rc, .reg ra]⟩
  | .mulRR ra rb rc => ⟨.mul, [.reg rb, .reg rc, .reg ra]⟩
  | .mulRI ra rb imm10 => ⟨.mul, [.reg rb, .num imm10.toNat, .reg ra]⟩
  | .divRR ra rb rc => ⟨.div, [.reg rb, .reg rc, .reg ra]⟩
  | .divRI ra rb imm10 => ⟨.div, [.reg rb, .num imm10.toNat, .reg ra]⟩
  | .divIR ra rb imm10 => ⟨.div, [.num imm10.toNat, .reg rb, .reg ra]⟩
  | .slRR ra rb rc => ⟨.sl, [.reg rb, .reg rc, .reg ra]⟩
  | .slRI ra rb imm10 => ⟨.sl, [.reg rb, .num imm10.toNat, .reg ra]⟩
  | .slIR ra rb imm10 => ⟨.sl, [.num imm10.toNat, .reg rb, .reg ra]⟩
  | .slII ra immA immB => ⟨.sl, [.num immA.toNat, .num immB.toNat, .reg ra]⟩
  | .lrsRR ra rb rc => ⟨.lrs, [.reg rb, .reg rc, .reg ra]⟩
  | .lrsRI ra rb imm10 => ⟨.lrs, [.reg rb, .num imm10.toNat, .reg ra]⟩
  | .lrsIR ra rb imm10 => ⟨.lrs, [.num imm10.toNat, .reg rb, .reg ra]⟩
  | .lrsII ra immA immB => ⟨.lrs, [.num immA.toNat, .num immB.toNat, .reg ra]⟩
  | .arsRR ra rb rc => ⟨.ars, [.reg rb, .reg rc, .reg ra]⟩
  | .arsRI ra rb imm10 => ⟨.ars, [.reg rb, .num imm10.toNat, .reg ra]⟩
  | .arsIR ra rb imm10 => ⟨.ars, [.num imm10.toNat, .reg rb, .reg ra]⟩
  | .arsII ra immA immB => ⟨.ars, [.num immA.toNat, .num immB.toNat, .reg ra]⟩
  | .lcsRR ra rb rc => ⟨.lcs, [.reg rb, .reg rc, .reg ra]⟩
  | .lcsRI ra rb imm10 => ⟨.lcs, [.reg rb, .num imm10.toNat, .reg ra]⟩
  | .lcsIR ra rb imm10 => ⟨.lcs, [.num imm10.toNat, .reg rb, .reg ra]⟩
  | .lcsII ra immA immB => ⟨.lcs, [.num immA.toNat, .num immB.toNat, .reg ra]⟩
  | .gtRR ra rb rc => ⟨.gt, [.reg rb, .reg rc, .reg ra]⟩
  | .gtRI ra rb imm10 => ⟨.gt, [.reg rb, .num imm10.toNat, .reg ra]⟩
  | .eqRR ra rb rc => ⟨.eq, [.reg rb, .reg rc, .reg ra]⟩
  | .eqRI ra rb imm10 => ⟨.eq, [.reg rb, .num imm10.toNat, .reg ra]⟩
  | .ltRR ra rb rc => ⟨.lt, [.reg rb, .reg rc, .reg ra]⟩
  | .ltRI ra rb imm10 => ⟨.lt, [.reg rb, .num imm10.toNat, .reg ra]⟩
  | .gteRR ra rb rc => ⟨.gte, [.reg rb, .reg rc, .reg ra]⟩
  | .gteRI ra rb imm10 => ⟨.gte, [.reg rb, .num imm10.toNat, .reg ra]⟩
  | .lteRR ra rb rc => ⟨.lte, [.reg rb, .reg rc, .reg ra]⟩
  | .lteRI ra rb imm10 => ⟨.lte, [.reg rb, .num imm10.toNat, .reg ra]⟩
  | .jmpImm imm22 => ⟨.jmp, [.memNum imm22.toNat]⟩
  | .jmpReg rb rc => ⟨.jmp, [memOperand rb rc]⟩
  | .ojmpImm ra imm16 => ⟨.ojmp, [.reg ra, .memNum imm16.toNat]⟩
  | .ojmpReg ra rb rc => ⟨.ojmp, [.reg ra, memOperand rb rc]⟩
  | .zjmpImm ra imm16 => ⟨.zjmp, [.reg ra, .memNum imm16.toNat]⟩
  | .zjmpReg ra rb rc => ⟨.zjmp, [.reg ra, memOperand rb rc]⟩

/-! ## Text (R70, R71) -/

/-- An operand as text. -/
def renderOperand : Operand → String
  | .reg l => l.name
  | .num n => Nat.repr n
  | .memReg b none => "[" ++ b.name ++ "]"
  | .memReg b (some x) => "[" ++ b.name ++ " + " ++ x.name ++ "]"
  | .memNum n => "[" ++ Nat.repr n ++ "]"
  | .symbol y => y

/-- Operands separated by a comma and a space. -/
def renderOperands : List Operand → String
  | [] => ""
  | [o] => renderOperand o
  | o :: p :: r => renderOperand o ++ ", " ++ renderOperands (p :: r)

/-- A statement as text: mnemonic, space, operands (R70). -/
def renderStatement (st : Statement) : String :=
  (mnemonicTable.lookup st.mnemonic).getD "" ++ " " ++ renderOperands st.operands

/-- The value of a digit character in a base up to 16; a hexadecimal digit of either case (DESIGN CHOICE, log 25). -/
def digitValue (base : Nat) (ch : Char) : Option Nat :=
  let n := ch.toNat
  let v := if 48 ≤ n ∧ n ≤ 57 then n - 48
    else if 65 ≤ n ∧ n ≤ 70 then n - 55
    else if 97 ≤ n ∧ n ≤ 102 then n - 87
    else base
  if v < base then some v else none

/-- The number that a run of digits continues from `acc`. -/
def digits (base acc : Nat) : List Char → Option Nat
  | [] => some acc
  | ch :: r => (digitValue base ch).bind (fun v => digits base (acc * base + v) r)

/-- A decimal number, or one with the header 0x or 0b (R71). Leading zeros are allowed and no other header is
(DESIGN CHOICE, log 25). -/
def parseNumber : List Char → Option Nat
  | '0' :: 'x' :: ch :: r => digits 16 0 (ch :: r)
  | '0' :: 'b' :: ch :: r => digits 2 0 (ch :: r)
  | ch :: r => digits 10 0 (ch :: r)
  | [] => none

/-- The label of a register's name (R11). -/
def parseRegister (cs : List Char) : Option Label :=
  let n := Label.names.findIdx (fun y => y.toList == cs)
  if h : n < 42 then some ⟨n, h⟩ else none

/-- What stands before the first `sep`, and what stands after it if there is one. -/
def cutAt (sep : Char) : List Char → List Char × Option (List Char)
  | [] => ([], none)
  | ch :: r =>
    if ch = sep then ([], some r)
    else let p := cutAt sep r; (ch :: p.1, p.2)

/-- The characters less one closing bracket at the end. -/
def dropBracket : List Char → Option (List Char)
  | [] => none
  | [ch] => if ch = ']' then some [] else none
  | ch :: d :: r => (dropBracket (d :: r)).map (fun t => ch :: t)

/-- The inside of a pair of brackets: a number, `%r1`, or `%r1 + %r2`. -/
def parseBracketed (cs : List Char) : Option Operand :=
  match cs with
  | '%' :: _ =>
    match cutAt ' ' cs with
    | (b, none) => (parseRegister b).map (fun l => .memReg l none)
    | (b, some ('+' :: ' ' :: x)) =>
      (parseRegister b).bind (fun l => (parseRegister x).map (fun k => .memReg l (some k)))
    | _ => none
  | _ => (parseNumber cs).map .memNum

/-- One operand: a register, a bracketed operand, a number, or else a symbolic name. The source does not show how a
name is spelt (N24): that every operand is one which is not empty and begins with no digit, `%` or `[` is the
model's own (DESIGN CHOICE, log 25). -/
def parseOperand (cs : List Char) : Option Operand :=
  match cs with
  | [] => none
  | '%' :: _ => (parseRegister cs).map .reg
  | '[' :: r => (dropBracket r).bind parseBracketed
  | ch :: r =>
    if 48 ≤ ch.toNat ∧ ch.toNat ≤ 57 then (parseNumber (ch :: r)).map .num
    else some (.symbol (String.ofList (ch :: r)))

/-- Operands separated by a comma and a space (R70); `fuel` bounds their number. No other spacing is accepted
(DESIGN CHOICE, log 25). -/
def parseOperands : Nat → List Char → Option (List Operand)
  | 0, _ => none
  | fuel + 1, cs =>
    match cutAt ',' cs with
    | (o, none) => (parseOperand o).map (fun p => [p])
    | (o, some (' ' :: r)) => (parseOperand o).bind (fun p => (parseOperands fuel r).map (fun q => p :: q))
    | _ => none

/-- The mnemonic spelt so. -/
def parseMnemonic (cs : List Char) : Option Mnemonic :=
  (mnemonicTable.find? (fun p => p.2.toList == cs)).map (fun p => p.1)

/-- A line of text as a statement (R70); no statement has more than three operands (R73). -/
def parseStatement (line : String) : Option Statement :=
  match cutAt ' ' line.toList with
  | (m, some r) => (parseMnemonic m).bind (fun y => (parseOperands 3 r).map (fun ops => ⟨y, ops⟩))
  | _ => none

/-- The word a line of text assembles to. -/
def assembleLine (symbols : List (String × Nat)) (line : String) : Option Word :=
  (parseStatement line).bind (assembleWord symbols)

end Sys2Proof.Machine
end

