-- ==== Sys2Proof/Safety.lean ====
section
/-!
DEFINITION. The terms the statements are written in: the end of a run and a safe run
(spec/70_reset_and_hazards.md R232, R235), the invariant of the machine's data, what an instruction changes and
leaves alone, and the instruction words as positional numbers (spec/30_encoding.md R51 to R59), written from
the spec's formats and not from the encoder.
-/
namespace Sys2Proof.Machine

/-! ## Runs -/

/-- A final state: the step from it yields the same state (R232). -/
def State.Final (s : State) : Prop := step s = .next s

/-- `t` is reached from `s` by `k` completed steps (R235). -/
def Reaches (s : State) : Nat → State → Prop
  | 0, t => t = s
  | k + 1, t => ∃ u, step s = .next u ∧ Reaches u k t

/-- The run from `s` ends successfully in `t` (R232). -/
def EndsIn (s t : State) : Prop := (∃ k, Reaches s k t) ∧ t.Final

/-- The run from `s` ends unsuccessfully: a state it reaches faults (R232). -/
def EndsFaulted (s : State) (f : Fault) : Prop := ∃ k t, Reaches s k t ∧ step t = .fault f

/-- The run from `s` never faults and is never refused. -/
def SafeRun (s : State) : Prop := ∀ k t, Reaches s k t → ∃ u, step t = .next u

/-- The invariant of the machine's data: the memory has its canonical form. -/
abbrev State.Inv (s : State) : Prop := s.mem.wf = true

/-! ## Register fields (R62) -/

/-- A register an instruction may write: labels 1 to 40 (R13). -/
abbrev Target (l : Label) : Prop := 1 ≤ l.val ∧ l.val ≤ 40

/-- An address base, or the source of a reduction: labels 1 to 41. -/
abbrev NotZero (l : Label) : Prop := 1 ≤ l.val

/-- An address index: labels 0 to 40. -/
abbrev NotPc (l : Label) : Prop := l.val ≤ 40

/-! ## What an instruction changes -/

/-- No byte of memory and no backed address differs. -/
def SameMemory (s t : State) : Prop := t.mem.map = s.mem.map ∧ ∀ a, t.mem.byte a = s.mem.byte a

/-- No register but %PC differs. -/
def SameRegs (s t : State) : Prop := ∀ l : Label, l ≠ Label.pc → t.reg l = s.reg l

/-- From `s` to `t`, `x[ra] <- v` and `pc <- pc + 4` and nothing else. -/
def WritesOnly (s t : State) (ra : Label) (v : Word) : Prop :=
  t.reg ra = v ∧ (∀ l : Label, l ≠ ra → l ≠ Label.pc → t.reg l = s.reg l) ∧ t.pc = s.pc + 4#32 ∧ SameMemory s t

/-- From `s` to `t`, `pc <- target` and nothing else. -/
def JumpsOnly (s t : State) (target : Word) : Prop := t.pc = target ∧ SameRegs s t ∧ SameMemory s t

/-- From `s` to `t`, the `n` bytes from `ea` on become `b 0`, `b 1`, … and `pc <- pc + 4` and nothing else. -/
def StoresOnly (s t : State) (ea : Word) (n : Nat) (b : Nat → Byte) : Prop :=
  (∀ i < n, t.mem.byte (ea.toNat + i) = b i) ∧
  (∀ a, (∀ i < n, a ≠ ea.toNat + i) → t.mem.byte a = s.mem.byte a) ∧
  t.mem.map = s.mem.map ∧ SameRegs s t ∧ t.pc = s.pc + 4#32

/-- The instruction completes in every state, writing `value s` to `ra` and nothing else (R105). -/
def Computes (i : Instr) (ra : Label) (value : State → Word) : Prop :=
  ∀ s, ∃ t, exec i s = .next t ∧ WritesOnly s t ra (value s)

/-- The instruction completes in every state, writing to `ra` the word whose bit `k` is `bit s k`, and nothing
else. -/
def ComputesBits (i : Instr) (ra : Label) (bit : State → Nat → Bool) : Prop :=
  ∀ s, ∃ t, exec i s = .next t ∧ WritesOnly s t ra (t.reg ra) ∧ ∀ k < 32, (t.reg ra).getLsbD k = bit s k

/-- An `n`-byte data access at `ea` is aligned (R35) and touches backed bytes only (R36). -/
def Accessible (s : State) (ea : Word) (n : Nat) : Prop :=
  ea.toNat % n = 0 ∧ ∀ i < n, s.mem.backed (ea.toNat + i) = true

/-- The number in the `n` bytes from address `a` on, the lowest address least significant (R33). -/
def numberAt (m : Memory) (a : Nat) : Nat → Nat
  | 0 => 0
  | n + 1 => (m.byte a).toNat + 256 * numberAt m (a + 1) n

/-- The number in the `n` bytes from `ea` on (R33). -/
def littleEndian (s : State) (ea : Word) (n : Nat) : Nat := numberAt s.mem ea.toNat n

/-- A load of `n` bytes (R81, R83, R84): it completes on an accessible address, writing the number there to `ra`;
it raises MisalignedData on a misaligned one (R209); it raises AccessFault on an aligned one with an unbacked
byte (R208). -/
def Loads (i : Instr) (ra rb rc : Label) (n : Nat) : Prop :=
  ∀ s : State,
    (Accessible s (effectiveAddress s rb rc) n →
      ∃ t, exec i s = .next t ∧
        WritesOnly s t ra (BitVec.ofNat 32 (littleEndian s (effectiveAddress s rb rc) n))) ∧
    ((effectiveAddress s rb rc).toNat % n ≠ 0 →
      exec i s = .fault (.misalignedData s.pc (effectiveAddress s rb rc))) ∧
    ((effectiveAddress s rb rc).toNat % n = 0 →
      (∃ k < n, s.mem.backed ((effectiveAddress s rb rc).toNat + k) = false) →
      exec i s = .fault (.dataAccess s.pc (effectiveAddress s rb rc)))

/-- A store of the low `n` bytes of `x[ra]` (R85 to R87), with the same three cases. -/
def Stores (i : Instr) (ra rb rc : Label) (n : Nat) : Prop :=
  ∀ s : State,
    (s.Inv → Accessible s (effectiveAddress s rb rc) n →
      ∃ t, exec i s = .next t ∧
        StoresOnly s t (effectiveAddress s rb rc) n (fun k => BitVec.ofNat 8 ((s.reg ra).toNat / 256 ^ k))) ∧
    ((effectiveAddress s rb rc).toNat % n ≠ 0 →
      exec i s = .fault (.misalignedData s.pc (effectiveAddress s rb rc))) ∧
    ((effectiveAddress s rb rc).toNat % n = 0 →
      (∃ k < n, s.mem.backed ((effectiveAddress s rb rc).toNat + k) = false) →
      exec i s = .fault (.dataAccess s.pc (effectiveAddress s rb rc)))

/-! ## Families -/

/-- The six encodings of the Jump Operations (R185). -/
def isJump : Instr → Bool
  | .jmpImm _ | .jmpReg _ _ | .ojmpImm _ _ | .ojmpReg _ _ _ | .zjmpImm _ _ | .zjmpReg _ _ _ => true
  | _ => false

/-- The three stores (R88). -/
def isStore : Instr → Bool
  | .store8 _ _ _ | .store16 _ _ _ | .store32 _ _ _ => true
  | _ => false

/-- The register an instruction writes, if it writes one: its field `ra`, except in stores and jumps (R61, R88). -/
def targetOf : Instr → Option Label
  | .load8Imm ra _ | .load8Mem ra _ _ | .load16Imm ra _ | .load16Mem ra _ _ | .load32Mem ra _ _ => some ra
  | .store8 _ _ _ | .store16 _ _ _ | .store32 _ _ _ => none
  | .move ra _ | .addRR ra _ _ | .addRI ra _ _ | .subRR ra _ _ | .subRI ra _ _ | .subIR ra _ _ => some ra
  | .bandRR ra _ _ | .bandRI ra _ _ | .borRR ra _ _ | .borRI ra _ _ | .bnotR ra _ | .bnotI ra _ => some ra
  | .bxorRR ra _ _ | .bxorRI ra _ _ | .rand ra _ | .ror ra _ | .rxor ra _ => some ra
  | .mulRR ra _ _ | .mulRI ra _ _ | .divRR ra _ _ | .divRI ra _ _ | .divIR ra _ _ => some ra
  | .slRR ra _ _ | .slRI ra _ _ | .slIR ra _ _ | .slII ra _ _ => some ra
  | .lrsRR ra _ _ | .lrsRI ra _ _ | .lrsIR ra _ _ | .lrsII ra _ _ => some ra
  | .arsRR ra _ _ | .arsRI ra _ _ | .arsIR ra _ _ | .arsII ra _ _ => some ra
  | .lcsRR ra _ _ | .lcsRI ra _ _ | .lcsIR ra _ _ | .lcsII ra _ _ => some ra
  | .gtRR ra _ _ | .gtRI ra _ _ | .eqRR ra _ _ | .eqRI ra _ _ | .ltRR ra _ _ | .ltRI ra _ _ => some ra
  | .gteRR ra _ _ | .gteRI ra _ _ | .lteRR ra _ _ | .lteRI ra _ _ => some ra
  | .jmpImm _ | .jmpReg _ _ | .ojmpImm _ _ | .ojmpReg _ _ _ | .zjmpImm _ _ | .zjmpReg _ _ _ => none

/-- Where a jump goes when it is taken in `s`; `none` for a jump not taken and for every other instruction
(R186 to R191). -/
def takenTarget (s : State) : Instr → Option Word
  | .jmpImm imm22 => some (BitVec.ofNat 32 imm22.toNat)
  | .jmpReg rb rc => some (effectiveAddress s rb rc)
  | .ojmpImm ra imm16 => if s.reg ra = 1#32 then some (BitVec.ofNat 32 imm16.toNat) else none
  | .ojmpReg ra rb rc => if s.reg ra = 1#32 then some (effectiveAddress s rb rc) else none
  | .zjmpImm ra imm16 => if s.reg ra = 0#32 then some (BitVec.ofNat 32 imm16.toNat) else none
  | .zjmpReg ra rb rc => if s.reg ra = 0#32 then some (effectiveAddress s rb rc) else none
  | _ => none

/-- The divisor of a DIV form in `s`, its operand `B` (R124 to R126); `none` for every other instruction. -/
def divisorOf (s : State) : Instr → Option Nat
  | .divRR _ _ rc => some (s.reg rc).toNat
  | .divRI _ _ imm10 => some imm10.toNat
  | .divIR _ rb _ => some (s.reg rb).toNat
  | _ => none

/-- The address base, the address index and the number of bytes of a load or store (R81, R83 to R87); `none` for
every other instruction. -/
def accessOf : Instr → Option (Label × Label × Nat)
  | .load8Mem _ rb rc | .store8 _ rb rc => some (rb, rc, 1)
  | .load16Mem _ rb rc | .store16 _ rb rc => some (rb, rc, 2)
  | .load32Mem _ rb rc | .store32 _ rb rc => some (rb, rc, 4)
  | _ => none

/-! ## Instruction words as positional numbers -/

/-- Formats M, REG3 and CJR (R55, R57, R59). -/
def wordThree (op : Nat) (ra rb rc : Label) : Word :=
  BitVec.ofNat 32 (op * 2 ^ 22 + ra.val * 2 ^ 16 + rb.val * 2 ^ 6 + rc.val)

/-- Format REG2 (R56). -/
def wordTwo (op : Nat) (ra rc : Label) : Word := BitVec.ofNat 32 (op * 2 ^ 22 + ra.val * 2 ^ 16 + rc.val)

/-- Format RI (R58): `imm10[9:6]` in bits 15:12, `imm10[5:0]` in bits 5:0. -/
def wordRI (op : Nat) (ra rb : Label) (imm10 : BitVec 10) : Word :=
  BitVec.ofNat 32 (op * 2 ^ 22 + ra.val * 2 ^ 16 + imm10.toNat / 64 * 2 ^ 12 + rb.val * 2 ^ 6 + imm10.toNat % 64)

/-- Format II (R58). -/
def wordII (op : Nat) (ra : Label) (immA : BitVec 10) (immB : BitVec 6) : Word :=
  BitVec.ofNat 32 (op * 2 ^ 22 + ra.val * 2 ^ 16 + immA.toNat * 2 ^ 6 + immB.toNat)

/-- Formats I8, I16 and CJ (R53, R54, R59). -/
def wordImm (op : Nat) (ra : Label) {n : Nat} (imm : BitVec n) : Word :=
  BitVec.ofNat 32 (op * 2 ^ 22 + ra.val * 2 ^ 16 + imm.toNat)

/-- Format J (R59). -/
def wordJ (op : Nat) (imm22 : BitVec 22) : Word := BitVec.ofNat 32 (op * 2 ^ 22 + imm22.toNat)

/-- Format JR (R59). -/
def wordJR (op : Nat) (rb rc : Label) : Word := BitVec.ofNat 32 (op * 2 ^ 22 + rb.val * 2 ^ 6 + rc.val)

/-- `w` is the one word of the instruction, and the instruction has a word only when its register fields are in
range: no other word decodes to it (R62, R63, R67, R69). -/
def Encoded (i : Instr) (ranges : Prop) (w : Word) : Prop :=
  (ranges → encode i = some w) ∧ ∀ v, decode v = .ok i ↔ ranges ∧ v = w

/-- The instruction has the word `w` (with its register fields in `ranges`) and, for every target register,
computes `value`. -/
def HasWordAndValue (i : Instr) (ranges : Prop) (w : Word) (ra : Label) (value : State → Word) : Prop :=
  Encoded i ranges w ∧ (Target ra → Computes i ra value)

/-- The instruction has the word `w` (with its register fields in `ranges`) and, for every target register,
computes the bits `bit`. -/
def HasWordAndBits (i : Instr) (ranges : Prop) (w : Word) (ra : Label) (bit : State → Nat → Bool) : Prop :=
  Encoded i ranges w ∧ (Target ra → ComputesBits i ra bit)

/-- The fetch of the next step reads the word `w`: `pc` is aligned, its four bytes are backed, and they hold
`w`, least significant byte first (R37). -/
def Fetches (s : State) (w : Word) : Prop :=
  s.pc.toNat % 4 = 0 ∧ (∀ k < 4, s.mem.backed (s.pc.toNat + k) = true) ∧ littleEndian s s.pc 4 = w.toNat

/-- The field bits that R64 prints as zero for an assigned opcode, as a mask; none for any other. -/
def zeroMask (op : Nat) : Word :=
  if op = 0x001 then 0x0000FF00#32
  else if op ∈ [0x009, 0x208, 0x20C, 0x20D, 0x20E] then 0x0000FFC0#32
  else if op = 0x301 then 0x003FF000#32
  else if op ∈ [0x002, 0x004, 0x005, 0x006, 0x007, 0x008, 0x200, 0x202, 0x205, 0x20A, 0x20F, 0x211] ++
      [0x214, 0x218, 0x21C, 0x220, 0x240, 0x242, 0x244, 0x246, 0x248, 0x303, 0x305] then 0x0000F000#32
  else 0#32

/-- The opcodes that R66 lists as unassigned. -/
def Unassigned (op : Nat) : Prop :=
  op = 0x000 ∨ (0x00A ≤ op ∧ op ≤ 0x1FF) ∨ (0x224 ≤ op ∧ op ≤ 0x23F) ∨ (0x24A ≤ op ∧ op ≤ 0x2FF) ∨ 0x306 ≤ op

/-- The number of a word's opcode field, bits 31:22 (R51). -/
def opcodeNumber (w : Word) : Nat := w.toNat / 2 ^ 22

end Sys2Proof.Machine
end

