-- ==== Sys2Proof/Certificates/Slice0/Obligations.lean ====
section
/-!
DEFINITION. The statements for the provers. Values are written in arithmetic on natural numbers and integers, not
with the model's own functions. "The word" of an instruction is a positional number (`wordThree` and its kin),
not the encoder's. Every docstring says which rules of spec/ the statement follows, and which decisions (D<n>) of
spec/92_eei_decisions.md or entries of notes/assumptions it rests on. All rest on the reading of the bit order of
the tables (D1).
-/
open Sys2Proof Sys2Proof.Machine

/-! ## Integer operations -/

/-- R106, R107, R109, R110: ADD_RR, ADD_RI, SUB_RI, SUB_IR complete in every state with the sum or difference
modulo 2^32; nothing else changes. -/
def Obligations.AddAndSubtractImmediateForms : Prop :=
  ∀ (ra rb rc : Label) (imm10 : BitVec 10),
    HasWordAndValue (.addRR ra rb rc) (Target ra) (wordThree 0x200 ra rb rc) ra
      (fun s => BitVec.ofNat 32 ((s.reg rb).toNat + (s.reg rc).toNat)) ∧
    HasWordAndValue (.addRI ra rb imm10) (Target ra) (wordRI 0x201 ra rb imm10) ra
      (fun s => BitVec.ofNat 32 ((s.reg rb).toNat + imm10.toNat)) ∧
    HasWordAndValue (.subRI ra rb imm10) (Target ra) (wordRI 0x203 ra rb imm10) ra
      (fun s => BitVec.ofInt 32 ((s.reg rb).toNat - imm10.toNat : Int)) ∧
    HasWordAndValue (.subIR ra rb imm10) (Target ra) (wordRI 0x204 ra rb imm10) ra
      (fun s => BitVec.ofInt 32 (imm10.toNat - (s.reg rb).toNat : Int))

/-- SUB_RR (the first operand is the minuend, which the spec derives), MUL_RR and MUL_RI (modulo 2^32, D14). -/
def Obligations.SubtractAndMultiplyForms : Prop :=
  ∀ (ra rb rc : Label) (imm10 : BitVec 10),
    HasWordAndValue (.subRR ra rb rc) (Target ra) (wordThree 0x202 ra rb rc) ra
      (fun s => BitVec.ofInt 32 ((s.reg rb).toNat - (s.reg rc).toNat : Int)) ∧
    HasWordAndValue (.mulRR ra rb rc) (Target ra) (wordThree 0x20F ra rb rc) ra
      (fun s => BitVec.ofNat 32 ((s.reg rb).toNat * (s.reg rc).toNat)) ∧
    HasWordAndValue (.mulRI ra rb imm10) (Target ra) (wordRI 0x210 ra rb imm10) ra
      (fun s => BitVec.ofNat 32 ((s.reg rb).toNat * imm10.toNat))

/-- R111, R117: BAND_RR and BXOR_RR, bit by bit. -/
def Obligations.AndXorOfRegistersBitwise : Prop :=
  ∀ ra rb rc : Label,
    HasWordAndBits (.bandRR ra rb rc) (Target ra) (wordThree 0x205 ra rb rc) ra
      (fun s k => (s.reg rb).getLsbD k && (s.reg rc).getLsbD k) ∧
    HasWordAndBits (.bxorRR ra rb rc) (Target ra) (wordThree 0x20A ra rb rc) ra
      (fun s k => (s.reg rb).getLsbD k != (s.reg rc).getLsbD k)

/-- R114, R118: BOR_RI and BXOR_RI, bit by bit; bits 31:10 of the register pass. -/
def Obligations.OrXorWithImmediateBitwise : Prop :=
  ∀ (ra rb : Label) (imm10 : BitVec 10),
    HasWordAndBits (.borRI ra rb imm10) (Target ra) (wordRI 0x207 ra rb imm10) ra
      (fun s k => (s.reg rb).getLsbD k || (decide (k < 10) && imm10.getLsbD k)) ∧
    HasWordAndBits (.bxorRI ra rb imm10) (Target ra) (wordRI 0x20B ra rb imm10) ra
      (fun s k => (s.reg rb).getLsbD k != (decide (k < 10) && imm10.getLsbD k))

/-- BAND_RI, at opcode 0x206 by the spec's decision (D13, log 11): bits 31:10 of the result are 0. -/
def Obligations.AndWithImmediateKeepsLowBits : Prop :=
  ∀ (ra rb : Label) (imm10 : BitVec 10),
    HasWordAndBits (.bandRI ra rb imm10) (Target ra) (wordRI 0x206 ra rb imm10) ra
      (fun s k => (s.reg rb).getLsbD k && (decide (k < 10) && imm10.getLsbD k))

/-- R115: BNOT_R inverts each of the 32 bits. -/
def Obligations.NotOfRegisterInvertsEveryBit : Prop :=
  ∀ ra rc : Label,
    HasWordAndBits (.bnotR ra rc) (Target ra) (wordTwo 0x208 ra rc) ra (fun s k => !(s.reg rc).getLsbD k)

/-- BNOT_I: the immediate is widened with zeros, then inverted (D20). -/
def Obligations.NotOfImmediateSetsHighHalf : Prop :=
  ∀ (ra : Label) (imm16 : BitVec 16),
    HasWordAndValue (.bnotI ra imm16) (Target ra) (wordImm 0x209 ra imm16) ra
      (fun _ => BitVec.ofNat 32 (4294967295 - imm16.toNat))

/-- RAND, ROR, RXOR: the reduction of all 32 bits to one (D19). Their source is not %ZERO. -/
def Obligations.ReductionsToOneBit : Prop :=
  ∀ ra rc : Label,
    HasWordAndValue (.rand ra rc) (Target ra ∧ NotZero rc) (wordTwo 0x20C ra rc) ra
      (fun s => if (s.reg rc).toNat = 4294967295 then 1#32 else 0#32) ∧
    HasWordAndValue (.ror ra rc) (Target ra ∧ NotZero rc) (wordTwo 0x20D ra rc) ra
      (fun s => if (s.reg rc).toNat = 0 then 0#32 else 1#32) ∧
    HasWordAndValue (.rxor ra rc) (Target ra ∧ NotZero rc) (wordTwo 0x20E ra rc) ra
      (fun s => BitVec.ofNat 32 (((List.range 32).map (fun k => (s.reg rc).toNat / 2 ^ k % 2)).sum % 2))

/-- BOR_RR (D13, log 11): it ORs, no word encodes it and the assembler refuses it; under OPC206 = BOR_RR its word
is at opcode 0x206, where BAND_RI then has none. -/
def Obligations.OrOfRegistersWithoutDefaultWord : Prop :=
  ∀ (ra rb rc : Label) (imm10 : BitVec 10),
    (Target ra → ComputesBits (.borRR ra rb rc) ra (fun s k => (s.reg rb).getLsbD k || (s.reg rc).getLsbD k)) ∧
    (∀ w, decode w ≠ .ok (.borRR ra rb rc)) ∧ encode (.borRR ra rb rc) = none ∧
    (∀ symbols, assembleWord symbols ⟨.bor, [.reg rb, .reg rc, .reg ra]⟩ = none) ∧
    (∀ w, decodeWith { settings with opc206 := .borRR } w = .ok (.borRR ra rb rc) ↔
      Target ra ∧ w = wordThree 0x206 ra rb rc) ∧
    (∀ w, decodeWith { settings with opc206 := .borRR } w ≠ .ok (.bandRI ra rb imm10))

/-- The three DIV forms complete for every divisor other than 0: signed, rounded toward zero, modulo 2^32
(D15, log 13). -/
def Obligations.DivideTruncatesTowardZero : Prop :=
  ∀ (ra rb rc : Label) (imm10 : BitVec 10),
    Encoded (.divRR ra rb rc) (Target ra) (wordThree 0x211 ra rb rc) ∧
    Encoded (.divRI ra rb imm10) (Target ra) (wordRI 0x212 ra rb imm10) ∧
    Encoded (.divIR ra rb imm10) (Target ra) (wordRI 0x213 ra rb imm10) ∧
    (Target ra → ∀ s : State,
      ((s.reg rc).toNat ≠ 0 → ∃ t, exec (.divRR ra rb rc) s = .next t ∧
        WritesOnly s t ra (BitVec.ofInt 32 ((s.reg rb).toInt.tdiv (s.reg rc).toInt))) ∧
      (imm10.toNat ≠ 0 → ∃ t, exec (.divRI ra rb imm10) s = .next t ∧
        WritesOnly s t ra (BitVec.ofInt 32 ((s.reg rb).toInt.tdiv (imm10.toNat : Int)))) ∧
      ((s.reg rb).toNat ≠ 0 → ∃ t, exec (.divIR ra rb imm10) s = .next t ∧
        WritesOnly s t ra (BitVec.ofInt 32 ((imm10.toNat : Int).tdiv (s.reg rb).toInt))))

/-- The three DIV forms stop at a zero divisor (D16, log 14), at once when the divisor is %ZERO. -/
def Obligations.DivideByZeroStops : Prop :=
  ∀ (ra rb rc : Label) (imm10 : BitVec 10) (s : State),
    ((s.reg rc).toNat = 0 → exec (.divRR ra rb rc) s = .fault (.divideByZero s.pc)) ∧
    exec (.divRR ra rb Label.zero) s = .fault (.divideByZero s.pc) ∧
    exec (.divRI ra rb 0#10) s = .fault (.divideByZero s.pc) ∧
    ((s.reg rb).toNat = 0 → exec (.divIR ra rb imm10) s = .fault (.divideByZero s.pc))

/-- Where both operands are below 2^31 and the divisor is not 0, the quotient is the floor under either
DIV_SIGNED. Under DIV0 = any a zero divisor completes with some value. -/
def Obligations.DivideSettingsAgreeBelowSignBit : Prop :=
  ∀ (c : Settings) (s : State) (ra : Label) (a b : Word),
    (a.toNat < 2147483648 → b.toNat < 2147483648 → b.toNat ≠ 0 →
      divideResult c s ra (a, b) = writeResult s ra (BitVec.ofNat 32 (a.toNat / b.toNat))) ∧
    (c.div0 = .any → ∃ v, divideResult c s ra (a, 0#32) = writeResult s ra v)

/-! ## Shifts -/

/-- SL: the value times 2^count, modulo 2^32, for every 32-bit count (D18, log 16). -/
def Obligations.ShiftLeftMultiplies : Prop :=
  ∀ (ra rb rc : Label) (imm10 : BitVec 10) (immB : BitVec 6),
    HasWordAndValue (.slRR ra rb rc) (Target ra) (wordThree 0x214 ra rb rc) ra
      (fun s => BitVec.ofNat 32 ((s.reg rb).toNat * 2 ^ (s.reg rc).toNat)) ∧
    HasWordAndValue (.slRI ra rb imm10) (Target ra) (wordRI 0x215 ra rb imm10) ra
      (fun s => BitVec.ofNat 32 ((s.reg rb).toNat * 2 ^ imm10.toNat)) ∧
    HasWordAndValue (.slIR ra rb imm10) (Target ra) (wordRI 0x216 ra rb imm10) ra
      (fun s => BitVec.ofNat 32 (imm10.toNat * 2 ^ (s.reg rb).toNat)) ∧
    HasWordAndValue (.slII ra imm10 immB) (Target ra) (wordII 0x217 ra imm10 immB) ra
      (fun _ => BitVec.ofNat 32 (imm10.toNat * 2 ^ immB.toNat))

/-- LRS: the value divided by 2^count, rounded down, for every 32-bit count (D18, log 16). -/
def Obligations.LogicalShiftRightDivides : Prop :=
  ∀ (ra rb rc : Label) (imm10 : BitVec 10) (immB : BitVec 6),
    HasWordAndValue (.lrsRR ra rb rc) (Target ra) (wordThree 0x218 ra rb rc) ra
      (fun s => BitVec.ofNat 32 ((s.reg rb).toNat / 2 ^ (s.reg rc).toNat)) ∧
    HasWordAndValue (.lrsRI ra rb imm10) (Target ra) (wordRI 0x219 ra rb imm10) ra
      (fun s => BitVec.ofNat 32 ((s.reg rb).toNat / 2 ^ imm10.toNat)) ∧
    HasWordAndValue (.lrsIR ra rb imm10) (Target ra) (wordRI 0x21A ra rb imm10) ra
      (fun s => BitVec.ofNat 32 (imm10.toNat / 2 ^ (s.reg rb).toNat)) ∧
    HasWordAndValue (.lrsII ra imm10 immB) (Target ra) (wordII 0x21B ra imm10 immB) ra
      (fun _ => BitVec.ofNat 32 (imm10.toNat / 2 ^ immB.toNat))

/-- ARS: the signed value divided by 2^count, rounded toward minus infinity (D18, log 16). The immediate values
shifted are not negative. -/
def Obligations.ArithmeticShiftRightFloors : Prop :=
  ∀ (ra rb rc : Label) (imm10 : BitVec 10) (immB : BitVec 6),
    HasWordAndValue (.arsRR ra rb rc) (Target ra) (wordThree 0x21C ra rb rc) ra
      (fun s => BitVec.ofInt 32 (Int.fdiv (s.reg rb).toInt (2 ^ (s.reg rc).toNat))) ∧
    HasWordAndValue (.arsRI ra rb imm10) (Target ra) (wordRI 0x21D ra rb imm10) ra
      (fun s => BitVec.ofInt 32 (Int.fdiv (s.reg rb).toInt (2 ^ imm10.toNat))) ∧
    HasWordAndValue (.arsIR ra rb imm10) (Target ra) (wordRI 0x21E ra rb imm10) ra
      (fun s => BitVec.ofNat 32 (imm10.toNat / 2 ^ (s.reg rb).toNat)) ∧
    HasWordAndValue (.arsII ra imm10 immB) (Target ra) (wordII 0x21F ra imm10 immB) ra
      (fun _ => BitVec.ofNat 32 (imm10.toNat / 2 ^ immB.toNat))

/-- LCS: bit `k` of the result is the bit of the value `count mod 32` places below it, around the word. -/
def Obligations.CircularShiftRotatesBits : Prop :=
  ∀ (ra rb rc : Label) (imm10 : BitVec 10) (immB : BitVec 6),
    HasWordAndBits (.lcsRR ra rb rc) (Target ra) (wordThree 0x220 ra rb rc) ra
      (fun s k => (s.reg rb).getLsbD ((k + 32 - (s.reg rc).toNat % 32) % 32)) ∧
    HasWordAndBits (.lcsRI ra rb imm10) (Target ra) (wordRI 0x221 ra rb imm10) ra
      (fun s k => (s.reg rb).getLsbD ((k + 32 - imm10.toNat % 32) % 32)) ∧
    HasWordAndBits (.lcsIR ra rb imm10) (Target ra) (wordRI 0x222 ra rb imm10) ra
      (fun s k => imm10.getLsbD ((k + 32 - (s.reg rb).toNat % 32) % 32)) ∧
    HasWordAndBits (.lcsII ra imm10 immB) (Target ra) (wordII 0x223 ra imm10 immB) ra
      (fun _ k => imm10.getLsbD ((k + 32 - immB.toNat % 32) % 32))

/-- For a count below 32 the two settings of SHIFT_AMOUNT agree; for LCS they agree on every count. -/
def Obligations.ShiftSettingsAgreeBelowWidth : Prop :=
  ∀ (c d : Settings) (v n : Word),
    (n.toNat < 32 → slValue c (v, n) = slValue d (v, n) ∧ lrsValue c (v, n) = lrsValue d (v, n) ∧
      arsValue c (v, n) = arsValue d (v, n)) ∧
    lcsValue c (v, n) = lcsValue d (v, n)

/-- The second claim of R158, which the spec derives: a shifted immediate has sign bit 0, so ARS and LRS of it do
the same. -/
def Obligations.ArithmeticShiftOfImmediateIsLogical : Prop :=
  ∀ (ra rb : Label) (imm10 : BitVec 10) (immB : BitVec 6) (s : State),
    exec (.arsIR ra rb imm10) s = exec (.lrsIR ra rb imm10) s ∧
    exec (.arsII ra imm10 immB) s = exec (.lrsII ra imm10 immB) s

/-! ## Compares -/

/-- GT_RR, LT_RR, GTE_RR, LTE_RR: 1 or 0, by the signed order (D17, log 15). -/
def Obligations.OrderComparesOfRegisters : Prop :=
  ∀ ra rb rc : Label,
    HasWordAndValue (.gtRR ra rb rc) (Target ra) (wordThree 0x240 ra rb rc) ra
      (fun s => if (s.reg rb).toInt > (s.reg rc).toInt then 1#32 else 0#32) ∧
    HasWordAndValue (.ltRR ra rb rc) (Target ra) (wordThree 0x244 ra rb rc) ra
      (fun s => if (s.reg rb).toInt < (s.reg rc).toInt then 1#32 else 0#32) ∧
    HasWordAndValue (.gteRR ra rb rc) (Target ra) (wordThree 0x246 ra rb rc) ra
      (fun s => if (s.reg rb).toInt ≥ (s.reg rc).toInt then 1#32 else 0#32) ∧
    HasWordAndValue (.lteRR ra rb rc) (Target ra) (wordThree 0x248 ra rb rc) ra
      (fun s => if (s.reg rb).toInt ≤ (s.reg rc).toInt then 1#32 else 0#32)

/-- GT_RI, LT_RI, GTE_RI, LTE_RI: the signed register against 0 to 1023 (D7, D17, log 15). -/
def Obligations.OrderComparesWithImmediate : Prop :=
  ∀ (ra rb : Label) (imm10 : BitVec 10),
    HasWordAndValue (.gtRI ra rb imm10) (Target ra) (wordRI 0x241 ra rb imm10) ra
      (fun s => if (s.reg rb).toInt > (imm10.toNat : Int) then 1#32 else 0#32) ∧
    HasWordAndValue (.ltRI ra rb imm10) (Target ra) (wordRI 0x245 ra rb imm10) ra
      (fun s => if (s.reg rb).toInt < (imm10.toNat : Int) then 1#32 else 0#32) ∧
    HasWordAndValue (.gteRI ra rb imm10) (Target ra) (wordRI 0x247 ra rb imm10) ra
      (fun s => if (s.reg rb).toInt ≥ (imm10.toNat : Int) then 1#32 else 0#32) ∧
    HasWordAndValue (.lteRI ra rb imm10) (Target ra) (wordRI 0x249 ra rb imm10) ra
      (fun s => if (s.reg rb).toInt ≤ (imm10.toNat : Int) then 1#32 else 0#32)

/-- R168, R169: EQ_RR and EQ_RI. -/
def Obligations.EqualityCompares : Prop :=
  ∀ (ra rb rc : Label) (imm10 : BitVec 10),
    HasWordAndValue (.eqRR ra rb rc) (Target ra) (wordThree 0x242 ra rb rc) ra
      (fun s => if (s.reg rb).toNat = (s.reg rc).toNat then 1#32 else 0#32) ∧
    HasWordAndValue (.eqRI ra rb imm10) (Target ra) (wordRI 0x243 ra rb imm10) ra
      (fun s => if (s.reg rb).toNat = imm10.toNat then 1#32 else 0#32)

/-- The last sentence of R176: exactly one of GT, EQ, LT holds; GTE = GT or EQ = not LT; LTE = LT or EQ = not
GT. Register forms. -/
def Obligations.CompareRelationsConsistent : Prop :=
  ∀ (ra rb rc : Label) (s : State), Target ra →
    ∃ g e l ge le : State,
      exec (.gtRR ra rb rc) s = .next g ∧ exec (.eqRR ra rb rc) s = .next e ∧
      exec (.ltRR ra rb rc) s = .next l ∧ exec (.gteRR ra rb rc) s = .next ge ∧
      exec (.lteRR ra rb rc) s = .next le ∧
      (g.reg ra).toNat + (e.reg ra).toNat + (l.reg ra).toNat = 1 ∧
      (ge.reg ra).toNat = (g.reg ra).toNat + (e.reg ra).toNat ∧
      (ge.reg ra).toNat = 1 - (l.reg ra).toNat ∧
      (le.reg ra).toNat = (l.reg ra).toNat + (e.reg ra).toNat ∧
      (le.reg ra).toNat = 1 - (g.reg ra).toNat

/-! ## Memory and register operations -/

/-- LOAD8_IMM and LOAD16_IMM: the immediate, widened with zeros (D7, D8). -/
def Obligations.ImmediateLoads : Prop :=
  ∀ (ra : Label) (imm8 : BitVec 8) (imm16 : BitVec 16),
    HasWordAndValue (.load8Imm ra imm8) (Target ra) (wordImm 0x001 ra imm8) ra
      (fun _ => BitVec.ofNat 32 imm8.toNat) ∧
    HasWordAndValue (.load16Imm ra imm16) (Target ra) (wordImm 0x003 ra imm16) ra
      (fun _ => BitVec.ofNat 32 imm16.toNat)

/-- LOAD8_MEM, LOAD16_MEM, LOAD32_MEM: the value, widened with zeros, or the fault (D4, D5, D8, D31). -/
def Obligations.LoadsFromMemory : Prop :=
  ∀ ra rb rc : Label,
    Encoded (.load8Mem ra rb rc) (Target ra ∧ NotZero rb ∧ NotPc rc) (wordThree 0x002 ra rb rc) ∧
    Encoded (.load16Mem ra rb rc) (Target ra ∧ NotZero rb ∧ NotPc rc) (wordThree 0x004 ra rb rc) ∧
    Encoded (.load32Mem ra rb rc) (Target ra ∧ NotZero rb ∧ NotPc rc) (wordThree 0x005 ra rb rc) ∧
    (Target ra → Loads (.load8Mem ra rb rc) ra rb rc 1 ∧ Loads (.load16Mem ra rb rc) ra rb rc 2 ∧
      Loads (.load32Mem ra rb rc) ra rb rc 4)

/-- STORE8, STORE16, STORE32: the low bytes of the register, the least significant first, or the fault (D4, D5,
D31). -/
def Obligations.StoresToMemory : Prop :=
  ∀ ra rb rc : Label,
    Encoded (.store8 ra rb rc) (Target ra ∧ NotZero rb ∧ NotPc rc) (wordThree 0x006 ra rb rc) ∧
    Encoded (.store16 ra rb rc) (Target ra ∧ NotZero rb ∧ NotPc rc) (wordThree 0x007 ra rb rc) ∧
    Encoded (.store32 ra rb rc) (Target ra ∧ NotZero rb ∧ NotPc rc) (wordThree 0x008 ra rb rc) ∧
    Stores (.store8 ra rb rc) ra rb rc 1 ∧ Stores (.store16 ra rb rc) ra rb rc 2 ∧
    Stores (.store32 ra rb rc) ra rb rc 4

/-- The effective address: the sum modulo 2^32 (D32); with index %ZERO the base alone (D9); with base %PC the
address of the instruction itself (D25). -/
def Obligations.EffectiveAddressWraps : Prop :=
  ∀ (s : State) (rb rc : Label),
    effectiveAddress s rb rc = BitVec.ofNat 32 ((s.reg rb).toNat + (s.reg rc).toNat) ∧
    effectiveAddress s rb Label.zero = s.reg rb ∧
    effectiveAddress s Label.pc rc = BitVec.ofNat 32 (s.pc.toNat + (s.reg rc).toNat)

/-- Register reads and writes: %ZERO reads 0 (R12), %PC reads the address of the instruction (D25), a register
written reads what was written and no other register changes (R14), a label that is no target writes nothing
(log 22). -/
def Obligations.RegisterReadAfterWrite : Prop :=
  ∀ (s : State) (l k : Label) (v : Word),
    s.reg Label.zero = 0#32 ∧ s.reg Label.pc = s.pc ∧
    (Target l → (s.setReg l v).reg l = v) ∧ (k ≠ l → (s.setReg l v).reg k = s.reg k) ∧
    (¬ Target l → s.setReg l v = s)

/-- MOVE copies any of the 42 registers to a target. Its encoding and effect do not rest on D33, which orders the
assembler's operands. -/
def Obligations.MoveCopiesRegister : Prop :=
  ∀ ra rc : Label,
    HasWordAndValue (.move ra rc) (Target ra) (wordTwo 0x009 ra rc) ra (fun s => s.reg rc) ∧
    (Target ra → Computes (.move ra Label.zero) ra (fun _ => 0#32) ∧
      Computes (.move ra Label.pc) ra (fun s => s.pc))

/-- MOVE onto itself changes nothing but `pc` (R68, R74). -/
def Obligations.MoveOntoItselfOnlyAdvances : Prop :=
  ∀ (ra : Label) (s : State), Target ra → exec (.move ra ra) s = .next s.advance

/-! ## Jumps -/

/-- JMP_IMM and JMP_REG complete in every state: `pc` becomes the number or the sum, and nothing else changes
(D21, D22, D32). -/
def Obligations.UnconditionalJumps : Prop :=
  ∀ (rb rc : Label) (imm22 : BitVec 22),
    Encoded (.jmpImm imm22) True (wordJ 0x300 imm22) ∧
    Encoded (.jmpReg rb rc) (NotZero rb ∧ NotPc rc) (wordJR 0x301 rb rc) ∧
    ∀ s : State,
      (∃ t, exec (.jmpImm imm22) s = .next t ∧ JumpsOnly s t (BitVec.ofNat 32 imm22.toNat)) ∧
      (∃ t, exec (.jmpReg rb rc) s = .next t ∧
        JumpsOnly s t (BitVec.ofNat 32 ((s.reg rb).toNat + (s.reg rc).toNat)))

/-- OJMP_IMM and OJMP_REG jump when the whole register is 1 (D23, D24), else advance. -/
def Obligations.JumpsWhenOne : Prop :=
  ∀ (ra rb rc : Label) (imm16 : BitVec 16),
    Encoded (.ojmpImm ra imm16) True (wordImm 0x302 ra imm16) ∧
    Encoded (.ojmpReg ra rb rc) (NotZero rb ∧ NotPc rc) (wordThree 0x303 ra rb rc) ∧
    ∀ s : State,
      (∃ t, exec (.ojmpImm ra imm16) s = .next t ∧
        JumpsOnly s t (if (s.reg ra).toNat = 1 then BitVec.ofNat 32 imm16.toNat else s.pc + 4#32)) ∧
      (∃ t, exec (.ojmpReg ra rb rc) s = .next t ∧
        JumpsOnly s t (if (s.reg ra).toNat = 1 then BitVec.ofNat 32 ((s.reg rb).toNat + (s.reg rc).toNat)
          else s.pc + 4#32))

/-- ZJMP_IMM and ZJMP_REG jump when the whole register is 0 (D23, D24), else advance. -/
def Obligations.JumpsWhenZero : Prop :=
  ∀ (ra rb rc : Label) (imm16 : BitVec 16),
    Encoded (.zjmpImm ra imm16) True (wordImm 0x304 ra imm16) ∧
    Encoded (.zjmpReg ra rb rc) (NotZero rb ∧ NotPc rc) (wordThree 0x305 ra rb rc) ∧
    ∀ s : State,
      (∃ t, exec (.zjmpImm ra imm16) s = .next t ∧
        JumpsOnly s t (if (s.reg ra).toNat = 0 then BitVec.ofNat 32 imm16.toNat else s.pc + 4#32)) ∧
      (∃ t, exec (.zjmpReg ra rb rc) s = .next t ∧
        JumpsOnly s t (if (s.reg ra).toNat = 0 then BitVec.ofNat 32 ((s.reg rb).toNat + (s.reg rc).toNat)
          else s.pc + 4#32))

/-- R21: an instruction that is no jump leaves `pc` at the next instruction, and no word decodes to an
instruction whose target is %PC. -/
def Obligations.OnlyJumpsAssignPc : Prop :=
  (∀ (i : Instr) (s t : State), isJump i = false → exec i s = .next t → t.pc = s.pc + 4#32) ∧
  ∀ (w : Word) (i : Instr), decode w = .ok i → targetOf i ≠ some Label.pc

/-- What every instruction leaves unchanged: no register but the target and %PC changes; memory does not change
unless the instruction is a store, and then only its 1, 2 or 4 bytes from the effective address on; the backed
addresses never change (R88, R105, R185). -/
def Obligations.FrameOfEveryInstruction : Prop :=
  ∀ (i : Instr) (s t : State), exec i s = .next t →
    (∀ l : Label, l ≠ Label.pc → targetOf i ≠ some l → t.reg l = s.reg l) ∧
    (isStore i = false → t.mem = s.mem) ∧ t.mem.map = s.mem.map ∧
    ∀ rb rc n, accessOf i = some (rb, rc, n) →
      ∀ a, (∀ k < n, a ≠ (effectiveAddress s rb rc).toNat + k) → t.mem.byte a = s.mem.byte a

/-! ## The step -/

/-- A step runs the decoded instruction: when the bytes at `pc` hold a word that decodes, the step is `exec` of
the instruction, with nothing around it (R235). -/
def Obligations.StepRunsDecodedInstruction : Prop :=
  ∀ (s : State) (w : Word) (i : Instr), Fetches s w → decode w = .ok i → step s = exec i s

/-- The fetch faults (D6, D31), in the order of R212. -/
def Obligations.FetchStopsOnBadPc : Prop :=
  ∀ s : State,
    (s.pc.toNat % 4 ≠ 0 → step s = .fault (.misalignedFetch s.pc)) ∧
    (s.pc.toNat % 4 = 0 → ∀ k < 4, s.mem.backed (s.pc.toNat + k) = false → step s = .fault (.fetchAccess s.pc))

/-- A word that does not decode stops the step with IllegalInstruction (D10 to D12); under the defaults no word
is refused. -/
def Obligations.UndecodedWordsStop : Prop :=
  ∀ (s : State) (w : Word) (r : DecodeReject), Fetches s w → decode w = .error r →
    step s = .fault (.illegalInstruction s.pc w)

/-- Under the defaults no step is refused. The faults of R205 a step raises are those of its fetch, of its decode
and of its instruction. An instruction raises a fault of its own in three cases and no other: a DIV form with
divisor 0 (R105 (i), R210), a load or store at a misaligned effective address (R209), and a load or store at an
aligned one with a byte that is not backed (R208). The fault records the instruction's own address and the
effective address (D5, D16, D31; logs 3, 7, 14). -/
def Obligations.StepNeverRefused : Prop :=
  (∀ (s : State) (r : Refusal), step s ≠ .refused r) ∧
  (∀ (s : State) (f : Fault), step s = .fault f →
    f = .misalignedFetch s.pc ∨ f = .fetchAccess s.pc ∨
    ∃ w, Fetches s w ∧ (f = .illegalInstruction s.pc w ∨ ∃ i, decode w = .ok i ∧ exec i s = .fault f)) ∧
  ∀ (i : Instr) (s : State) (f : Fault), exec i s = .fault f ↔
    (divisorOf s i = some 0 ∧ f = .divideByZero s.pc) ∨
    ∃ rb rc n, accessOf i = some (rb, rc, n) ∧
      (((effectiveAddress s rb rc).toNat % n ≠ 0 ∧ f = .misalignedData s.pc (effectiveAddress s rb rc)) ∨
        ((effectiveAddress s rb rc).toNat % n = 0 ∧
          (∃ k < n, s.mem.backed ((effectiveAddress s rb rc).toNat + k) = false) ∧
          f = .dataAccess s.pc (effectiveAddress s rb rc)))

/-- The model's `withFetchWord` (logs 5 and 23): the next step runs the word placed, and only the four bytes at
`pc` and the map may differ. -/
def Obligations.PlacedWordRunsNext : Prop :=
  ∀ (s : State) (nbits n : Nat) (i : Instr), s.Inv → s.pc.toNat % 4 = 0 →
    decode (BitVec.ofNat 32 (n % 2 ^ nbits)) = .ok i →
    step (s.withFetchWord nbits n) = exec i (s.withFetchWord nbits n) ∧ (s.withFetchWord nbits n).Inv ∧
    (s.withFetchWord nbits n).gpr = s.gpr ∧ (s.withFetchWord nbits n).pc = s.pc ∧
    ∀ a, (∀ k < 4, a ≠ s.pc.toNat + k) → (s.withFetchWord nbits n).mem.byte a = s.mem.byte a

/-! ## Encoding -/

/-- Words of the spec's examples, one or more of each family (R80 to R87, R100, R106 to R126, R143, R157, R169,
R187, R189). -/
def Obligations.SampleWordsDecode : Prop :=
  decode 0x00410008#32 = .ok (.load8Imm 1 8#8) ∧ decode 0x01410A41#32 = .ok (.load32Mem 1 41 1) ∧
  decode 0x01810083#32 = .ok (.store8 1 2 3) ∧ decode 0x02420001#32 = .ok (.move 2 1) ∧
  decode 0x80030042#32 = .ok (.addRR 3 1 2) ∧ decode 0x8042007F#32 = .ok (.addRI 2 1 63#10) ∧
  decode 0x8242003F#32 = .ok (.bnotI 2 63#16) ∧ decode 0x83820001#32 = .ok (.rxor 2 1) ∧
  decode 0x84C20043#32 = .ok (.divIR 2 1 3#10) ∧ decode 0x8542007F#32 = .ok (.slRI 2 1 63#10) ∧
  decode 0x88C1FFC3#32 = .ok (.lcsII 1 1023#10 3#6) ∧ decode 0x90C2007F#32 = .ok (.eqRI 2 1 63#10) ∧
  decode 0xC0400A42#32 = .ok (.jmpReg 41 2) ∧ decode 0xC0C10A42#32 = .ok (.ojmpReg 1 41 2)

/-- Decode and encode agree, on every operand: the word of a well-formed instruction decodes to it, and every
well-formed instruction but BOR_RR (D13) has a word. -/
def Obligations.DecodeOfEncodedInstruction : Prop :=
  ∀ i : Instr, i.wf = true →
    (∀ w, encode i = some w → decode w = .ok i) ∧
    (encode i = none ↔ ∃ ra rb rc, i = .borRR ra rb rc)

/-- A word that decodes is the word of a well-formed instruction: the decoder drops no bit, and no two words
decode alike. -/
def Obligations.EncodeOfDecodedWord : Prop :=
  ∀ (w : Word) (i : Instr), decode w = .ok i → i.wf = true ∧ encode i = some w

/-- The unassigned opcodes of R66 are the ones rejected as such (D12). -/
def Obligations.UnassignedOpcodesRejected : Prop :=
  ∀ w : Word, decode w = .error .unassignedOpcode ↔ Unassigned (opcodeNumber w)

/-- A word with an assigned opcode is rejected for a field printed as zero exactly when it has a 1 there (D11). -/
def Obligations.NonzeroFieldsRejected : Prop :=
  ∀ w : Word, decode w = .error .nonzeroField ↔ w &&& zeroMask (opcodeNumber w) ≠ 0#32

/-- STRICT_DECODE = false (D10, D11) decodes every word that strict decoding does, to the same instruction, and
still no instruction whose target is %ZERO or %PC. -/
def Obligations.LenientDecodeExtendsStrict : Prop :=
  (∀ (w : Word) (i : Instr), decode w = .ok i → decodeWith { settings with strictDecode := false } w = .ok i) ∧
  ∀ (w : Word) (i : Instr) (ra : Label),
    decodeWith { settings with strictDecode := false } w = .ok i → targetOf i = some ra → Target ra

/-- OPC206 = refuse and CJMP_LAYOUT = refuse decline the words with those opcodes, and the step is refused
(D13, D23). -/
def Obligations.RefusingSettingsDecline : Prop :=
  ∀ (s : State) (w : Word),
    (opcodeNumber w = 0x206 → decodeWith { settings with opc206 := .refuse } w = .error .declined) ∧
    (0x302 ≤ opcodeNumber w → opcodeNumber w ≤ 0x305 →
      decodeWith { settings with cjmpLayout := .refuse } w = .error .declined) ∧
    rejectWord s w .declined = .refused (.declined s.pc w)

/-- The decoder on bytes, the lowest address first (D4): it reads four and returns the rest, and fewer than four
hold no instruction. -/
def Obligations.BytesDecodeAsWord : Prop :=
  (∀ (w : Word) (rest : List Byte) (i : Instr),
    decodeBytes (BitVec.ofNat 8 w.toNat :: BitVec.ofNat 8 (w.toNat / 256) :: BitVec.ofNat 8 (w.toNat / 65536) ::
      BitVec.ofNat 8 (w.toNat / 16777216) :: rest) = .ok (i, rest) ↔ decode w = .ok i) ∧
  (∀ bs : List Byte, bs.length < 4 → decodeBytes bs = .error .truncated) ∧
  ∀ (nbits n : Nat) (i : Instr),
    decodeTableWord nbits n = some i ↔ decode (BitVec.ofNat 32 (n % 2 ^ nbits)) = .ok i

/-! ## Memory -/

/-- The canonical form of the memory is kept by every step, from every state that has it. -/
def Obligations.CanonicalMemoryKeptByStep : Prop :=
  ∀ s t : State, s.Inv → step s = .next t → t.Inv

/-- The canonical form holds at reset. -/
def Obligations.CanonicalMemoryAtReset : Prop := State.reset.Inv

/-- R43, which the spec derives, for every 32-bit value and both byte orders (D4): the bytes and halfwords of a
word written. -/
def Obligations.MixedWidthReads : Prop :=
  ∀ (m : Memory) (a v : Word), m.wf = true →
    (∀ k < 4, (Memory.write32 .little m a v).read8 (a + BitVec.ofNat 32 k) = BitVec.ofNat 8 (v.toNat / 256 ^ k)) ∧
    Memory.read16 .little (Memory.write32 .little m a v) a = BitVec.ofNat 16 v.toNat ∧
    Memory.read16 .little (Memory.write32 .little m a v) (a + 2#32) = BitVec.ofNat 16 (v.toNat / 65536) ∧
    (∀ k < 4, (Memory.write32 .big m a v).read8 (a + BitVec.ofNat 32 k) =
      BitVec.ofNat 8 (v.toNat / 256 ^ (3 - k))) ∧
    Memory.read16 .big (Memory.write32 .big m a v) a = BitVec.ofNat 16 (v.toNat / 65536) ∧
    Memory.read16 .big (Memory.write32 .big m a v) (a + 2#32) = BitVec.ofNat 16 v.toNat

/-- A value stored is the value a later load of the same width reads at the same operands, widened with zeros
(D8, D30); neither address register is %PC, which the first of the two advances. -/
def Obligations.LoadAfterStoreReadsValue : Prop :=
  ∀ (ra rb rc rd : Label) (s t : State), s.Inv → Target rd → NotPc rb → NotPc rc →
    (exec (.store8 ra rb rc) s = .next t → ∃ u, exec (.load8Mem rd rb rc) t = .next u ∧
      (u.reg rd).toNat = (s.reg ra).toNat % 256) ∧
    (exec (.store16 ra rb rc) s = .next t → ∃ u, exec (.load16Mem rd rb rc) t = .next u ∧
      (u.reg rd).toNat = (s.reg ra).toNat % 65536) ∧
    (exec (.store32 ra rb rc) s = .next t → ∃ u, exec (.load32Mem rd rb rc) t = .next u ∧
      u.reg rd = s.reg ra)

/-- A word stored is the word a later fetch at its address reads (D30): there is no fence and none is needed. -/
def Obligations.StoredWordIsFetched : Prop :=
  ∀ (ra rb rc : Label) (s t : State), s.Inv → exec (.store32 ra rb rc) s = .next t →
    Fetches (t.setPc (effectiveAddress s rb rc)) (s.reg ra)

/-- The other settings of a store's checks: under CODE_WRITES = refuse a store that touches program text stops
(D30); under MISALIGNED_DATA = split only backing is checked, at addresses modulo 2^32 (D5). -/
def Obligations.StoreSettings : Prop :=
  ∀ (c : Settings) (s : State) (ea : Word) (n : Nat) (m : Memory) (text : List Region),
    (c.codeWrites = .refuse text → dataFault c s ea n = none →
      (∃ k < n, ∃ r ∈ text, r.holds (ea + BitVec.ofNat 32 k).toNat = true) →
      storeResult c s ea n m = .fault (.codeWrite s.pc ea)) ∧
    (c.codeWrites = .refuse text → dataFault c s ea n = none →
      (∀ k < n, ∀ r ∈ text, r.holds (ea + BitVec.ofNat 32 k).toNat = false) →
      storeResult c s ea n m = .next (s.setMem m).advance) ∧
    (c.misalignedData = .split →
      (dataFault c s ea n = none ↔ ∀ k < n, s.mem.backed (ea + BitVec.ofNat 32 k).toNat = true))

/-! ## Reset and runs -/

/-- The reset state (D28): `pc` at the default of RESET_PC (log 2) and %ZERO reading 0. The model's own choices:
the forty registers hold 0 (log 1), every address and none beyond is backed (log 3) and reads 0 (log 4). So the
first step from it stops: the word there is no instruction (log 5). -/
def Obligations.ResetState : Prop :=
  State.reset.pc = 0#32 ∧ State.reset.reg Label.zero = 0#32 ∧
  (∀ l : Label, Target l → State.reset.reg l = 0#32) ∧
  (∀ a, State.reset.mem.backed a = true ↔ a < 4294967296) ∧ (∀ a, State.reset.mem.byte a = 0#8) ∧
  step State.reset = .fault (.illegalInstruction 0#32 0#32)

/-- R232, decided (D29): a state is final exactly when the word at `pc` is a jump taken to `pc` itself. -/
def Obligations.FinalStateIsJumpToItself : Prop :=
  ∀ s : State, s.Final ↔ ∃ w i, Fetches s w ∧ decode w = .ok i ∧ takenTarget s i = some s.pc

/-- The halting idioms (R194): `JMP [%PC]` is final at every address, `JMP [a]` at address `a`, and
`ZJMP %ZERO, [a]` at address `a`. -/
def Obligations.HaltingIdiomsAreFinal : Prop :=
  ∀ s : State,
    (Fetches s 0xC0400A40#32 → s.Final) ∧
    (∀ imm22 : BitVec 22, imm22.toNat = s.pc.toNat → Fetches s (wordJ 0x300 imm22) → s.Final) ∧
    (∀ imm16 : BitVec 16, imm16.toNat = s.pc.toNat → Fetches s (wordImm 0x304 Label.zero imm16) → s.Final)

/-- Where a completed step leaves `pc`, whatever the instruction (R16, R21, R185, R235): at the target of a jump
that is taken, else at the next instruction, which is aligned because the fetch was (R37, D6). From a state that is
not final it changes `pc`: no instruction but a jump to itself stays where it is (R232, D29). -/
def Obligations.CompletedStepMovesPc : Prop :=
  ∀ s t : State, step s = .next t →
    (∃ w i, Fetches s w ∧ decode w = .ok i ∧ t.pc = (takenTarget s i).getD (s.pc + 4#32) ∧
      (takenTarget s i = none → t.pc.toNat % 4 = 0)) ∧
    (¬ s.Final → t.pc ≠ s.pc)

/-! ## Assembler -/

/-- The statement of an instruction, its operands in the order of R73 (D33), assembles to the instruction's word
when its labels are in range, and is refused when they are not. -/
def Obligations.StatementsAssemble : Prop :=
  ∀ (symbols : List (String × Nat)) (i : Instr),
    assemble symbols (statementOf i) = (if i.wf then some i else none) ∧
    (i.wf = true → assembleWord symbols (statementOf i) = encode i)

/-- The assembler rejects an immediate that does not fit its field (R60, R75, D34), in every statement that has
one: 10 bits for a second operand, a first operand and a value shifted, 6 for the count of an immediate shifted,
8 for LOAD8, 16 for LOAD16, BNOT, OJMP and ZJMP, 22 for JMP. The address of a symbolic name is such an immediate
(R72); that OJMP and ZJMP take a name is the model's own choice (log 25). -/
def Obligations.WideImmediatesRejected : Prop :=
  ∀ (symbols : List (String × Nat)) (a b : Label) (n k : Nat) (name : String),
    (1024 ≤ n →
      (∀ m ∈ [Mnemonic.add, .sub, .band, .bor, .bxor, .mul, .div, .sl, .lrs, .ars, .lcs, .gt, .eq, .lt, .gte, .lte],
        assembleWord symbols ⟨m, [.reg a, .num n, .reg b]⟩ = none) ∧
      (∀ m ∈ [Mnemonic.sub, .div, .sl, .lrs, .ars, .lcs],
        assembleWord symbols ⟨m, [.num n, .reg a, .reg b]⟩ = none) ∧
      ∀ m ∈ [Mnemonic.sl, .lrs, .ars, .lcs], assembleWord symbols ⟨m, [.num n, .num k, .reg b]⟩ = none) ∧
    (64 ≤ k →
      ∀ m ∈ [Mnemonic.sl, .lrs, .ars, .lcs], assembleWord symbols ⟨m, [.num n, .num k, .reg b]⟩ = none) ∧
    (256 ≤ n → assembleWord symbols ⟨.load8, [.num n, .reg b]⟩ = none) ∧
    (65536 ≤ n →
      (∀ m ∈ [Mnemonic.load16, .bnot], assembleWord symbols ⟨m, [.num n, .reg b]⟩ = none) ∧
      ∀ m ∈ [Mnemonic.ojmp, .zjmp], assembleWord symbols ⟨m, [.reg a, .memNum n]⟩ = none ∧
        (symbols.lookup name = some n → assembleWord symbols ⟨m, [.reg a, .symbol name]⟩ = none)) ∧
    (4194304 ≤ n → assembleWord symbols ⟨.jmp, [.memNum n]⟩ = none ∧
      (symbols.lookup name = some n → assembleWord symbols ⟨.jmp, [.symbol name]⟩ = none))
end

