-- ==== Sys2Proof/Laws/Settings.lean ====
section
/-!
SUPPORT. The parameter values in force, one lemma per parameter, so that no proof unfolds `settings`.
-/
namespace Sys2Proof

@[simp] theorem settings_endian : settings.endian = .little := rfl
@[simp] theorem settings_misalignedData : settings.misalignedData = .fault := rfl
@[simp] theorem settings_immExt : settings.immExt = .zero := rfl
@[simp] theorem settings_loadExt : settings.loadExt = .zero := rfl
@[simp] theorem settings_strictDecode : settings.strictDecode = true := rfl
@[simp] theorem settings_opc206 : settings.opc206 = .bandRI := rfl
@[simp] theorem settings_divSigned : settings.divSigned = true := rfl
@[simp] theorem settings_div0 : settings.div0 = .fault := rfl
@[simp] theorem settings_cmpSigned : settings.cmpSigned = true := rfl
@[simp] theorem settings_shiftAmount : settings.shiftAmount = .unmasked := rfl
@[simp] theorem settings_cjmpLayout : settings.cjmpLayout = .regAt21 := rfl
@[simp] theorem settings_codeWrites : settings.codeWrites = .visible := rfl

end Sys2Proof
end

