-- ==== Sys2Proof/Laws/Decode.lean ====
section
/-!
SUPPORT. The fields of the words the encoder lays out, and each format's decoder on its own layout and back.
-/
namespace Sys2Proof

/-! ## Fields of the layouts -/

section Fields
variable (op : BitVec 10) (ra rb rc : Label)

@[simp] theorem opField_layThree : opField (layThree op ra rb rc) = op := by
  ext i hi; simp only [opField, layThree, BitVec.getElem_extractLsb', BitVec.getLsbD_append]; grind
@[simp] theorem raField_layThree : raField (layThree op ra rb rc) = labelField ra := by
  ext i hi; simp only [raField, layThree, BitVec.getElem_extractLsb', BitVec.getLsbD_append]; grind
@[simp] theorem z4Field_layThree : z4Field (layThree op ra rb rc) = 0#4 := by
  ext i hi; simp only [z4Field, layThree, BitVec.getElem_extractLsb', BitVec.getLsbD_append]; grind
@[simp] theorem rbField_layThree : rbField (layThree op ra rb rc) = labelField rb := by
  ext i hi; simp only [rbField, layThree, BitVec.getElem_extractLsb', BitVec.getLsbD_append]; grind
@[simp] theorem rcField_layThree : rcField (layThree op ra rb rc) = labelField rc := by
  ext i hi; simp only [rcField, layThree, BitVec.getElem_extractLsb', BitVec.getLsbD_append]; grind

@[simp] theorem opField_layREG2 : opField (layREG2 op ra rc) = op := by
  ext i hi; simp only [opField, layREG2, BitVec.getElem_extractLsb', BitVec.getLsbD_append]; grind
@[simp] theorem raField_layREG2 : raField (layREG2 op ra rc) = labelField ra := by
  ext i hi; simp only [raField, layREG2, BitVec.getElem_extractLsb', BitVec.getLsbD_append]; grind
@[simp] theorem z10Field_layREG2 : z10Field (layREG2 op ra rc) = 0#10 := by
  ext i hi; simp only [z10Field, layREG2, BitVec.getElem_extractLsb', BitVec.getLsbD_append]; grind
@[simp] theorem rcField_layREG2 : rcField (layREG2 op ra rc) = labelField rc := by
  ext i hi; simp only [rcField, layREG2, BitVec.getElem_extractLsb', BitVec.getLsbD_append]; grind

variable (imm8 : BitVec 8) (imm10 : BitVec 10) (imm16 : BitVec 16) (imm22 : BitVec 22) (immB : BitVec 6)

@[simp] theorem opField_layI8 : opField (layI8 op ra imm8) = op := by
  ext i hi; simp only [opField, layI8, BitVec.getElem_extractLsb', BitVec.getLsbD_append]; grind
@[simp] theorem raField_layI8 : raField (layI8 op ra imm8) = labelField ra := by
  ext i hi; simp only [raField, layI8, BitVec.getElem_extractLsb', BitVec.getLsbD_append]; grind
@[simp] theorem z8Field_layI8 : z8Field (layI8 op ra imm8) = 0#8 := by
  ext i hi; simp only [z8Field, layI8, BitVec.getElem_extractLsb', BitVec.getLsbD_append]; grind
@[simp] theorem imm8Field_layI8 : imm8Field (layI8 op ra imm8) = imm8 := by
  ext i hi; simp only [imm8Field, layI8, BitVec.getElem_extractLsb', BitVec.getLsbD_append]; grind

@[simp] theorem opField_layI16 : opField (layI16 op ra imm16) = op := by
  ext i hi; simp only [opField, layI16, BitVec.getElem_extractLsb', BitVec.getLsbD_append]; grind
@[simp] theorem raField_layI16 : raField (layI16 op ra imm16) = labelField ra := by
  ext i hi; simp only [raField, layI16, BitVec.getElem_extractLsb', BitVec.getLsbD_append]; grind
@[simp] theorem imm16Field_layI16 : imm16Field (layI16 op ra imm16) = imm16 := by
  ext i hi; simp only [imm16Field, layI16, BitVec.getElem_extractLsb', BitVec.getLsbD_append]; grind

@[simp] theorem opField_layRI : opField (layRI op ra rb imm10) = op := by
  ext i hi; simp only [opField, layRI, BitVec.getElem_extractLsb', BitVec.getLsbD_append]; grind
@[simp] theorem raField_layRI : raField (layRI op ra rb imm10) = labelField ra := by
  ext i hi; simp only [raField, layRI, BitVec.getElem_extractLsb', BitVec.getLsbD_append]; grind
@[simp] theorem rbField_layRI : rbField (layRI op ra rb imm10) = labelField rb := by
  ext i hi; simp only [rbField, layRI, BitVec.getElem_extractLsb', BitVec.getLsbD_append]; grind
theorem z4Field_layRI : z4Field (layRI op ra rb imm10) = imm10.extractLsb' 6 4 := by
  ext i hi; simp only [z4Field, layRI, BitVec.getElem_extractLsb', BitVec.getLsbD_append]; grind
theorem rcField_layRI : rcField (layRI op ra rb imm10) = imm10.extractLsb' 0 6 := by
  ext i hi; simp only [rcField, layRI, BitVec.getElem_extractLsb', BitVec.getLsbD_append]; grind
@[simp] theorem imm10Field_layRI : imm10Field (layRI op ra rb imm10) = imm10 := by
  rw [imm10Field, z4Field_layRI, rcField_layRI]
  refine BitVec.eq_of_getLsbD_eq (w := 4 + 6) fun i hi => ?_
  rw [BitVec.getLsbD_append, BitVec.getLsbD_extractLsb', BitVec.getLsbD_extractLsb']
  grind

@[simp] theorem opField_layII : opField (layII op ra imm10 immB) = op := by
  ext i hi; simp only [opField, layII, BitVec.getElem_extractLsb', BitVec.getLsbD_append]; grind
@[simp] theorem raField_layII : raField (layII op ra imm10 immB) = labelField ra := by
  ext i hi; simp only [raField, layII, BitVec.getElem_extractLsb', BitVec.getLsbD_append]; grind
@[simp] theorem z10Field_layII : z10Field (layII op ra imm10 immB) = imm10 := by
  ext i hi; simp only [z10Field, layII, BitVec.getElem_extractLsb', BitVec.getLsbD_append]; grind
@[simp] theorem rcField_layII : rcField (layII op ra imm10 immB) = immB := by
  ext i hi; simp only [rcField, layII, BitVec.getElem_extractLsb', BitVec.getLsbD_append]; grind

@[simp] theorem opField_layJ : opField (layJ op imm22) = op := by
  ext i hi; simp only [opField, layJ, BitVec.getElem_extractLsb', BitVec.getLsbD_append]; grind
@[simp] theorem imm22Field_layJ : imm22Field (layJ op imm22) = imm22 := by
  ext i hi; simp only [imm22Field, layJ, BitVec.getElem_extractLsb', BitVec.getLsbD_append]; grind

@[simp] theorem opField_layJR : opField (layJR op rb rc) = op := by
  ext i hi; simp only [opField, layJR, BitVec.getElem_extractLsb', BitVec.getLsbD_append]; grind
@[simp] theorem j10Field_layJR : j10Field (layJR op rb rc) = 0#10 := by
  ext i hi; simp only [j10Field, layJR, BitVec.getElem_extractLsb', BitVec.getLsbD_append]; grind
@[simp] theorem rbField_layJR : rbField (layJR op rb rc) = labelField rb := by
  ext i hi; simp only [rbField, layJR, BitVec.getElem_extractLsb', BitVec.getLsbD_append]; grind
@[simp] theorem rcField_layJR : rcField (layJR op rb rc) = labelField rc := by
  ext i hi; simp only [rcField, layJR, BitVec.getElem_extractLsb', BitVec.getLsbD_append]; grind

end Fields

/-! ## Labels -/

/-- A label's field holds the label's number. -/
@[simp] theorem labelField_toNat (l : Label) : (labelField l).toNat = l.val := by
  simp [labelField, Nat.mod_eq_of_lt (show l.val < 64 by omega)]

/-- With STRICT_DECODE, a field gives a label exactly when it holds it and the label is in range (R63). -/
theorem labelIn_ok {r : LabelRange} {f : BitVec 6} {l : Label} :
    labelIn settings r f = .ok l ↔ f = labelField l ∧ r.contains l = true := by
  simp only [labelIn, settings_strictDecode, Bool.not_true, Bool.false_and, Bool.or_false]
  by_cases h : f.toNat < 42
  · have key : f = labelField l ↔ (⟨f.toNat, h⟩ : Label) = l := by
      rw [← BitVec.toNat_inj, labelField_toNat, Fin.ext_iff]
    rw [key]
    by_cases hc : r.contains ⟨f.toNat, h⟩ = true
    · simp only [h, hc, dite_true, if_true, Except.ok.injEq]
      exact ⟨fun e => ⟨e, e ▸ hc⟩, fun e => e.1⟩
    · simp only [h, hc, dite_true]
      exact ⟨fun e => by simp at e, fun e => absurd (e.1 ▸ e.2) hc⟩
  · simp only [h, dite_false, false_iff, reduceCtorEq]
    rintro ⟨rfl, -⟩
    exact h (by simp [l.isLt])

/-- A label in range is read back from its field. -/
theorem labelIn_labelField {r : LabelRange} {l : Label} (h : r.contains l = true) :
    labelIn settings r (labelField l) = .ok l := labelIn_ok.2 ⟨rfl, h⟩

/-- With STRICT_DECODE a field printed as zero must be zero (R67). -/
@[simp] theorem zeroOk_settings {n : Nat} (f : BitVec n) : zeroOk settings f = true ↔ f = 0#n := by
  simp [zeroOk]

/-! ## A word is its fields -/

theorem word_eq_three (w : Word) :
    w = (opField w ++ raField w ++ z4Field w ++ rbField w ++ rcField w : BitVec (10 + 6 + 4 + 6 + 6)) := by
  refine BitVec.eq_of_getLsbD_eq (w := 10 + 6 + 4 + 6 + 6) fun i hi => ?_
  simp only [opField, raField, z4Field, rbField, rcField, BitVec.getLsbD_append, BitVec.getLsbD_extractLsb']
  grind

theorem word_eq_reg2 (w : Word) :
    w = (opField w ++ raField w ++ z10Field w ++ rcField w : BitVec (10 + 6 + 10 + 6)) := by
  refine BitVec.eq_of_getLsbD_eq (w := 10 + 6 + 10 + 6) fun i hi => ?_
  simp only [opField, raField, z10Field, rcField, BitVec.getLsbD_append, BitVec.getLsbD_extractLsb']
  grind

theorem word_eq_i8 (w : Word) :
    w = (opField w ++ raField w ++ z8Field w ++ imm8Field w : BitVec (10 + 6 + 8 + 8)) := by
  refine BitVec.eq_of_getLsbD_eq (w := 10 + 6 + 8 + 8) fun i hi => ?_
  simp only [opField, raField, z8Field, imm8Field, BitVec.getLsbD_append, BitVec.getLsbD_extractLsb']
  grind

theorem word_eq_i16 (w : Word) : w = (opField w ++ raField w ++ imm16Field w : BitVec (10 + 6 + 16)) := by
  refine BitVec.eq_of_getLsbD_eq (w := 10 + 6 + 16) fun i hi => ?_
  simp only [opField, raField, imm16Field, BitVec.getLsbD_append, BitVec.getLsbD_extractLsb']
  grind

theorem word_eq_j (w : Word) : w = (opField w ++ imm22Field w : BitVec (10 + 22)) := by
  refine BitVec.eq_of_getLsbD_eq (w := 10 + 22) fun i hi => ?_
  simp only [opField, imm22Field, BitVec.getLsbD_append, BitVec.getLsbD_extractLsb']
  grind

theorem word_eq_jr (w : Word) :
    w = (opField w ++ j10Field w ++ rbField w ++ rcField w : BitVec (10 + 10 + 6 + 6)) := by
  refine BitVec.eq_of_getLsbD_eq (w := 10 + 10 + 6 + 6) fun i hi => ?_
  simp only [opField, j10Field, rbField, rcField, BitVec.getLsbD_append, BitVec.getLsbD_extractLsb']
  grind

theorem imm10Field_high (w : Word) : (imm10Field w).extractLsb' 6 4 = z4Field w := by
  refine BitVec.eq_of_getLsbD_eq fun i hi => ?_
  unfold imm10Field
  rw [BitVec.getLsbD_extractLsb', BitVec.getLsbD_append]
  grind

theorem imm10Field_low (w : Word) : (imm10Field w).extractLsb' 0 6 = rcField w := by
  refine BitVec.eq_of_getLsbD_eq fun i hi => ?_
  unfold imm10Field
  rw [BitVec.getLsbD_extractLsb', BitVec.getLsbD_append]
  grind

/-! ## Each format: its decoder reads its layout, and whatever it reads was laid out so -/

theorem decodeThree_ok {w : Word} {rA rB rC : LabelRange} {mk : Label → Label → Label → Instr} {i : Instr} :
    decodeThree settings w rA rB rC mk = .ok i ↔ ∃ ra rb rc, i = mk ra rb rc ∧ rA.contains ra = true ∧
      rB.contains rb = true ∧ rC.contains rc = true ∧ w = layThree (opField w) ra rb rc := by
  constructor
  · intro h
    unfold decodeThree at h
    split at h
    · rename_i hz
      cases ha : labelIn settings rA (raField w) with
      | error e => simp [ha, bind, Except.bind] at h
      | ok ra =>
        cases hb : labelIn settings rB (rbField w) with
        | error e => simp [ha, hb, bind, Except.bind] at h
        | ok rb =>
          cases hc : labelIn settings rC (rcField w) with
          | error e => simp [ha, hb, hc, bind, Except.bind] at h
          | ok rc =>
            simp only [ha, hb, hc, bind, Except.bind, Except.ok.injEq] at h
            obtain ⟨ea, ka⟩ := labelIn_ok.1 ha
            obtain ⟨eb, kb⟩ := labelIn_ok.1 hb
            obtain ⟨ec, kc⟩ := labelIn_ok.1 hc
            refine ⟨ra, rb, rc, h.symm, ka, kb, kc, ?_⟩
            conv_lhs => rw [word_eq_three w]
            rw [ea, eb, ec, (zeroOk_settings _).1 hz, layThree]
    · simp at h
  · rintro ⟨ra, rb, rc, rfl, ka, kb, kc, e⟩
    rw [e]
    simp [decodeThree, labelIn_labelField, ka, kb, kc, bind, Except.bind]

theorem decodeREG2_ok {w : Word} {rC : LabelRange} {mk : Label → Label → Instr} {i : Instr} :
    decodeREG2 settings w rC mk = .ok i ↔ ∃ ra rc, i = mk ra rc ∧ LabelRange.target.contains ra = true ∧
      rC.contains rc = true ∧ w = layREG2 (opField w) ra rc := by
  constructor
  · intro h
    unfold decodeREG2 at h
    split at h
    · rename_i hz
      cases ha : labelIn settings .target (raField w) with
      | error e => simp [ha, bind, Except.bind] at h
      | ok ra =>
        cases hc : labelIn settings rC (rcField w) with
        | error e => simp [ha, hc, bind, Except.bind] at h
        | ok rc =>
          simp only [ha, hc, bind, Except.bind, Except.ok.injEq] at h
          obtain ⟨ea, ka⟩ := labelIn_ok.1 ha
          obtain ⟨ec, kc⟩ := labelIn_ok.1 hc
          refine ⟨ra, rc, h.symm, ka, kc, ?_⟩
          conv_lhs => rw [word_eq_reg2 w]
          rw [ea, ec, (zeroOk_settings _).1 hz, layREG2]
    · simp at h
  · rintro ⟨ra, rc, rfl, ka, kc, e⟩
    rw [e]
    simp [decodeREG2, labelIn_labelField, ka, kc, bind, Except.bind]

theorem decodeI8_ok {w : Word} {mk : Label → BitVec 8 → Instr} {i : Instr} :
    decodeI8 settings w mk = .ok i ↔ ∃ ra v, i = mk ra v ∧ LabelRange.target.contains ra = true ∧
      w = layI8 (opField w) ra v := by
  constructor
  · intro h
    unfold decodeI8 at h
    split at h
    · rename_i hz
      cases ha : labelIn settings .target (raField w) with
      | error e => simp [ha, bind, Except.bind] at h
      | ok ra =>
        simp only [ha, bind, Except.bind, Except.ok.injEq] at h
        obtain ⟨ea, ka⟩ := labelIn_ok.1 ha
        refine ⟨ra, imm8Field w, h.symm, ka, ?_⟩
        conv_lhs => rw [word_eq_i8 w]
        rw [ea, (zeroOk_settings _).1 hz, layI8]
    · simp at h
  · rintro ⟨ra, v, rfl, ka, e⟩
    rw [e]
    simp [decodeI8, labelIn_labelField, ka, bind, Except.bind]

theorem decodeI16_ok {w : Word} {mk : Label → BitVec 16 → Instr} {i : Instr} :
    decodeI16 settings w mk = .ok i ↔ ∃ ra v, i = mk ra v ∧ LabelRange.target.contains ra = true ∧
      w = layI16 (opField w) ra v := by
  constructor
  · intro h
    unfold decodeI16 at h
    cases ha : labelIn settings .target (raField w) with
    | error e => simp [ha, bind, Except.bind] at h
    | ok ra =>
      simp only [ha, bind, Except.bind, Except.ok.injEq] at h
      obtain ⟨ea, ka⟩ := labelIn_ok.1 ha
      refine ⟨ra, imm16Field w, h.symm, ka, ?_⟩
      conv_lhs => rw [word_eq_i16 w]
      rw [ea, layI16]
  · rintro ⟨ra, v, rfl, ka, e⟩
    rw [e]
    simp [decodeI16, labelIn_labelField, ka, bind, Except.bind]

theorem decodeCJ_ok {w : Word} {mk : Label → BitVec 16 → Instr} {i : Instr} :
    decodeCJ settings w mk = .ok i ↔ ∃ ra v, i = mk ra v ∧ w = layI16 (opField w) ra v := by
  constructor
  · intro h
    unfold decodeCJ at h
    cases ha : labelIn settings .source (raField w) with
    | error e => simp [ha, bind, Except.bind] at h
    | ok ra =>
      simp only [ha, bind, Except.bind, Except.ok.injEq] at h
      obtain ⟨ea, -⟩ := labelIn_ok.1 ha
      refine ⟨ra, imm16Field w, h.symm, ?_⟩
      conv_lhs => rw [word_eq_i16 w]
      rw [ea, layI16]
  · rintro ⟨ra, v, rfl, e⟩
    rw [e]
    simp [decodeCJ, labelIn_labelField (r := .source) rfl, bind, Except.bind]

theorem decodeRI_ok {w : Word} {mk : Label → Label → BitVec 10 → Instr} {i : Instr} :
    decodeRI settings w mk = .ok i ↔ ∃ ra rb v, i = mk ra rb v ∧ LabelRange.target.contains ra = true ∧
      w = layRI (opField w) ra rb v := by
  constructor
  · intro h
    unfold decodeRI at h
    cases ha : labelIn settings .target (raField w) with
    | error e => simp [ha, bind, Except.bind] at h
    | ok ra =>
      cases hb : labelIn settings .source (rbField w) with
      | error e => simp [ha, hb, bind, Except.bind] at h
      | ok rb =>
        simp only [ha, hb, bind, Except.bind, Except.ok.injEq] at h
        obtain ⟨ea, ka⟩ := labelIn_ok.1 ha
        obtain ⟨eb, -⟩ := labelIn_ok.1 hb
        refine ⟨ra, rb, imm10Field w, h.symm, ka, ?_⟩
        conv_lhs => rw [word_eq_three w]
        rw [ea, eb, layRI, imm10Field_high, imm10Field_low]
  · rintro ⟨ra, rb, v, rfl, ka, e⟩
    rw [e]
    simp [decodeRI, labelIn_labelField, ka, labelIn_labelField (r := .source) rfl, bind, Except.bind]

theorem decodeII_ok {w : Word} {mk : Label → BitVec 10 → BitVec 6 → Instr} {i : Instr} :
    decodeII settings w mk = .ok i ↔ ∃ ra v u, i = mk ra v u ∧ LabelRange.target.contains ra = true ∧
      w = layII (opField w) ra v u := by
  constructor
  · intro h
    unfold decodeII at h
    cases ha : labelIn settings .target (raField w) with
    | error e => simp [ha, bind, Except.bind] at h
    | ok ra =>
      simp only [ha, bind, Except.bind, Except.ok.injEq] at h
      obtain ⟨ea, ka⟩ := labelIn_ok.1 ha
      refine ⟨ra, z10Field w, rcField w, h.symm, ka, ?_⟩
      conv_lhs => rw [word_eq_reg2 w]
      rw [ea, layII]
  · rintro ⟨ra, v, u, rfl, ka, e⟩
    rw [e]
    simp [decodeII, labelIn_labelField, ka, bind, Except.bind]

theorem decodeJR_ok {w : Word} {mk : Label → Label → Instr} {i : Instr} :
    decodeJR settings w mk = .ok i ↔ ∃ rb rc, i = mk rb rc ∧ LabelRange.notZero.contains rb = true ∧
      LabelRange.notPc.contains rc = true ∧ w = layJR (opField w) rb rc := by
  constructor
  · intro h
    unfold decodeJR at h
    split at h
    · rename_i hz
      cases hb : labelIn settings .notZero (rbField w) with
      | error e => simp [hb, bind, Except.bind] at h
      | ok rb =>
        cases hc : labelIn settings .notPc (rcField w) with
        | error e => simp [hb, hc, bind, Except.bind] at h
        | ok rc =>
          simp only [hb, hc, bind, Except.bind, Except.ok.injEq] at h
          obtain ⟨eb, kb⟩ := labelIn_ok.1 hb
          obtain ⟨ec, kc⟩ := labelIn_ok.1 hc
          refine ⟨rb, rc, h.symm, kb, kc, ?_⟩
          conv_lhs => rw [word_eq_jr w]
          rw [eb, ec, (zeroOk_settings _).1 hz, layJR]
    · simp at h
  · rintro ⟨rb, rc, rfl, kb, kc, e⟩
    rw [e]
    simp [decodeJR, labelIn_labelField, kb, kc, bind, Except.bind]

end Sys2Proof
end

