-- ==== Sys2Proof/Laws/Memory.lean ====
section
/-!
SUPPORT. The laws of memory: read after write, and every operation keeps the canonical form.
-/
namespace Sys2Proof.Machine

/-! ## Cells -/

/-- An address below all listed ones reads blank. -/
theorem lookupCell_below (a : Nat) (cs : List Host.Cell) (h : ∀ p ∈ cs, a < p.1) :
    lookupCell a cs = Config.blankByte := by
  induction cs with
  | nil => rfl
  | cons p r ih =>
    have hp := h p (by simp)
    simp only [lookupCell, show ¬p.1 = a by omega, if_false]
    exact ih (fun q hq => h q (by simp [hq]))

/-- Reading back the cell just stored, and any other cell, where the addresses rise. -/
theorem lookupCell_storeCell (a k : Nat) (b : Byte) (cs : List Host.Cell)
    (h : cs.Pairwise (fun p q => p.1 < q.1)) :
    lookupCell k (storeCell a b cs) = if k = a then b else lookupCell k cs := by
  induction cs with
  | nil => by_cases hb : b = Config.blankByte <;> by_cases hk : a = k <;> simp [storeCell, lookupCell, hb, hk, eq_comm]
  | cons p r ih =>
    obtain ⟨c, v⟩ := p
    rw [List.pairwise_cons] at h
    have below : ∀ j ≤ c, lookupCell j r = Config.blankByte :=
      fun j hj => lookupCell_below j r (fun q hq => by have := h.1 q hq; simp only at this; omega)
    simp only [storeCell]
    split
    · simp only [lookupCell, ih h.2]
      by_cases hk : k = a
      · simp [hk, show ¬c = a by omega]
      · simp [hk]
    · split
      · subst_vars
        by_cases hk : k = c
        · subst hk
          by_cases hb : b = Config.blankByte
          · simp [hb, below k (le_refl k)]
          · simp [hb, lookupCell]
        · by_cases hb : b = Config.blankByte <;> simp [hb, hk, lookupCell, Ne.symm hk]
      · have hlt : a < c := by omega
        by_cases hk : k = a
        · subst hk
          by_cases hb : b = Config.blankByte
          · simp [hb, lookupCell, show ¬c = k by omega, below k (by omega)]
          · simp [hb, lookupCell]
        · by_cases hb : b = Config.blankByte <;> simp [hb, hk, lookupCell, Ne.symm hk]

/-- Any other cell reads as before, whatever the order of the list. -/
theorem lookupCell_storeCell_ne {a k : Nat} (h : k ≠ a) (b : Byte) (cs : List Host.Cell) :
    lookupCell k (storeCell a b cs) = lookupCell k cs := by
  induction cs with
  | nil => by_cases hb : b = Config.blankByte <;> simp [storeCell, lookupCell, hb, Ne.symm h]
  | cons p r ih =>
    obtain ⟨c, v⟩ := p
    simp only [storeCell]
    split
    · simp only [lookupCell, ih]
    · split <;> split <;> simp_all [lookupCell, Ne.symm h]

/-- Storing lists no address but the stored one and those listed before. -/
theorem mem_storeCell {a : Nat} {b : Byte} {cs : List Host.Cell} {p : Host.Cell} (h : p ∈ storeCell a b cs) :
    (p = (a, b) ∧ b ≠ Config.blankByte) ∨ p ∈ cs := by
  induction cs with
  | nil => simp only [storeCell] at h; split at h <;> simp_all
  | cons q r ih =>
    simp only [storeCell] at h
    split at h
    · rcases List.mem_cons.1 h with h | h
      · exact .inr (by simp [h])
      · exact (ih h).imp id (fun m => List.mem_cons_of_mem _ m)
    · split at h <;> split at h <;> simp only [List.mem_cons] at h ⊢ <;> tauto

/-- Rising addresses stay rising. -/
theorem pairwise_storeCell (a : Nat) (b : Byte) (cs : List Host.Cell) (h : cs.Pairwise (fun p q => p.1 < q.1)) :
    (storeCell a b cs).Pairwise (fun p q => p.1 < q.1) := by
  induction cs with
  | nil => simp only [storeCell]; split
           · simp
           · simp
  | cons q r ih =>
    rw [List.pairwise_cons] at h
    simp only [storeCell]
    split
    · refine List.pairwise_cons.2 ⟨fun p hp => ?_, ih h.2⟩
      rcases mem_storeCell hp with ⟨rfl, -⟩ | hp
      · assumption
      · exact h.1 p hp
    · split <;> split
      · exact h.2
      · refine List.pairwise_cons.2 ⟨fun p hp => ?_, h.2⟩
        subst_vars
        exact h.1 p hp
      · exact List.pairwise_cons.2 h
      · refine List.pairwise_cons.2 ⟨fun p hp => ?_, List.pairwise_cons.2 h⟩
        rcases List.mem_cons.1 hp with rfl | hp
        · simp only; omega
        · have := h.1 p hp
          simp only; omega

namespace Memory

/-! ## Bytes -/

/-- Writing a byte leaves every other byte alone, in canonical form or not. -/
theorem byte_setByte_ne (m : Memory) {a k : Nat} (b : Byte) (h : k ≠ a) : (m.setByte a b).byte k = m.byte k :=
  lookupCell_storeCell_ne h b m.cells

@[simp] theorem setByte_map (m : Memory) (a : Nat) (b : Byte) : (m.setByte a b).map = m.map := rfl
@[simp] theorem write8_map (m : Memory) (a : Word) (v : BitVec 8) : (m.write8 a v).map = m.map := rfl
@[simp] theorem write16_map (e : Endian) (m : Memory) (a : Word) (v : BitVec 16) : (write16 e m a v).map = m.map := by
  cases e <;> rfl
@[simp] theorem write32_map (e : Endian) (m : Memory) (a : Word) (v : BitVec 32) : (write32 e m a v).map = m.map := by
  cases e <;> rfl

@[simp] theorem setByte_backed (m : Memory) (a k : Nat) (b : Byte) : (m.setByte a b).backed k = m.backed k := rfl

/-- What is backed depends on the map alone. -/
theorem backed_congr {m n : Memory} (h : n.map = m.map) (a : Nat) : n.backed a = m.backed a := by
  simp [backed, h]

theorem backedFrom_congr {m n : Memory} (h : n.map = m.map) (a : Word) (k : Nat) :
    n.backedFrom a k = m.backedFrom a k := by
  simp [backedFrom, backed, h]

/-- `backedFrom` says that each of the bytes is backed. -/
theorem backedFrom_iff (m : Memory) (a : Word) (n : Nat) :
    m.backedFrom a n = true ↔ ∀ i < n, m.backed (a + BitVec.ofNat 32 i).toNat = true := by
  simp [backedFrom]

/-- The parts of the canonical form. -/
theorem wf_iff (m : Memory) : m.wf = true ↔ m.mapWf = true ∧ m.cells.Pairwise (fun p q => p.1 < q.1) ∧
    ∀ p ∈ m.cells, p.2 ≠ Config.blankByte ∧ m.backed p.1 = true := by
  simp [wf, and_assoc]

/-- Read after write: the byte written, and every other byte as before. -/
theorem byte_setByte {m : Memory} (h : m.wf = true) (a k : Nat) (b : Byte) :
    (m.setByte a b).byte k = if k = a then b else m.byte k :=
  lookupCell_storeCell a k b m.cells ((wf_iff m).1 h).2.1

/-- A byte written to a backed address keeps the canonical form. -/
theorem wf_setByte {m : Memory} (h : m.wf = true) (a : Nat) (b : Byte) (ha : m.backed a = true) :
    (m.setByte a b).wf = true := by
  obtain ⟨h1, h2, h3⟩ := (wf_iff m).1 h
  refine (wf_iff _).2 ⟨h1, pairwise_storeCell a b _ h2, fun p hp => ?_⟩
  rcases mem_storeCell hp with ⟨rfl, hb⟩ | hp
  · exact ⟨hb, ha⟩
  · exact h3 p hp

/-! ## What a write leaves alone -/

/-- A byte write leaves every other byte alone. -/
theorem byte_write8_ne (m : Memory) {a : Word} {k : Nat} (v : BitVec 8) (h : k ≠ a.toNat) :
    (m.write8 a v).byte k = m.byte k := byte_setByte_ne m v h

/-- A two-byte write leaves every byte but its two alone. -/
theorem byte_write16_ne (e : Endian) (m : Memory) {a : Word} {k : Nat} (v : BitVec 16)
    (h : ∀ i < 2, k ≠ (a + BitVec.ofNat 32 i).toNat) : (write16 e m a v).byte k = m.byte k := by
  have h0 := h 0 (by omega)
  have h1 := h 1 (by omega)
  simp only [BitVec.add_zero] at h0 h1
  cases e <;> exact (byte_write8_ne _ _ h1).trans (byte_write8_ne _ _ h0)

/-- A four-byte write leaves every byte but its four alone. -/
theorem byte_write32_ne (e : Endian) (m : Memory) {a : Word} {k : Nat} (v : BitVec 32)
    (h : ∀ i < 4, k ≠ (a + BitVec.ofNat 32 i).toNat) : (write32 e m a v).byte k = m.byte k := by
  have h0 := h 0 (by omega)
  have h1 := h 1 (by omega)
  have h2 := h 2 (by omega)
  have h3 := h 3 (by omega)
  simp only [BitVec.add_zero] at h0 h1 h2 h3
  cases e <;>
    exact (byte_write8_ne _ _ h3).trans ((byte_write8_ne _ _ h2).trans
      ((byte_write8_ne _ _ h1).trans (byte_write8_ne _ _ h0)))

/-! ## The canonical form of the wider writes -/

/-- Byte writes keep the canonical form. -/
theorem wf_write8 {m : Memory} (h : m.wf = true) (a : Word) (v : BitVec 8) (ha : m.backed a.toNat = true) :
    (m.write8 a v).wf = true := wf_setByte h _ _ ha

/-- Two-byte writes to backed addresses keep the canonical form. -/
theorem wf_write16 (e : Endian) {m : Memory} (h : m.wf = true) (a : Word) (v : BitVec 16)
    (hb : m.backedFrom a 2 = true) : (write16 e m a v).wf = true := by
  have hb := (backedFrom_iff m a 2).1 hb
  have h0 := hb 0 (by omega)
  have h1 := hb 1 (by omega)
  simp only [BitVec.add_zero] at h0 h1
  cases e <;> exact wf_write8 (wf_write8 h _ _ h0) _ _ h1

/-- Four-byte writes to backed addresses keep the canonical form. -/
theorem wf_write32 (e : Endian) {m : Memory} (h : m.wf = true) (a : Word) (v : BitVec 32)
    (hb : m.backedFrom a 4 = true) : (write32 e m a v).wf = true := by
  have hb := (backedFrom_iff m a 4).1 hb
  have h0 := hb 0 (by omega)
  have h1 := hb 1 (by omega)
  have h2 := hb 2 (by omega)
  have h3 := hb 3 (by omega)
  simp only [BitVec.add_zero] at h0 h1 h2 h3
  cases e <;> exact wf_write8 (wf_write8 (wf_write8 (wf_write8 h _ _ h0) _ _ h1) _ _ h2) _ _ h3

end Memory
end Sys2Proof.Machine
end

