-- ==== Sys2Proof/Laws/State.lean ====
section
/-!
SUPPORT. What each update of the state does to each field and to each register.
-/
namespace Sys2Proof.Machine

/-! ## Fields -/

@[simp] theorem setReg_gpr (s : State) (l : Label) (v : Word) : (s.setReg l v).gpr = writeGpr s.gpr l v := rfl
@[simp] theorem setReg_pc (s : State) (l : Label) (v : Word) : (s.setReg l v).pc = s.pc := rfl
@[simp] theorem setReg_mem (s : State) (l : Label) (v : Word) : (s.setReg l v).mem = s.mem := rfl
@[simp] theorem setPc_gpr (s : State) (t : Word) : (s.setPc t).gpr = s.gpr := rfl
@[simp] theorem setPc_pc (s : State) (t : Word) : (s.setPc t).pc = t := rfl
@[simp] theorem setPc_mem (s : State) (t : Word) : (s.setPc t).mem = s.mem := rfl
@[simp] theorem setMem_gpr (s : State) (m : Memory) : (s.setMem m).gpr = s.gpr := rfl
@[simp] theorem setMem_pc (s : State) (m : Memory) : (s.setMem m).pc = s.pc := rfl
@[simp] theorem setMem_mem (s : State) (m : Memory) : (s.setMem m).mem = m := rfl
@[simp] theorem advance_gpr (s : State) : s.advance.gpr = s.gpr := rfl
@[simp] theorem advance_pc (s : State) : s.advance.pc = s.pc + 4#32 := rfl
@[simp] theorem advance_mem (s : State) : s.advance.mem = s.mem := rfl

/-- Two states with equal fields are equal. -/
theorem state_ext {s t : State} (hg : s.gpr = t.gpr) (hp : s.pc = t.pc) (hm : s.mem = t.mem) : s = t := by
  cases s; cases t; simp_all

/-! ## Registers -/

@[simp] theorem reg_zero (s : State) : s.reg 0 = 0#32 := rfl

@[simp] theorem reg_pc (s : State) : s.reg 41 = s.pc := rfl

/-- Reading a general purpose register. -/
theorem reg_gpr (s : State) (l : Label) (h1 : 1 ≤ l.val) (h2 : l.val ≤ 40) :
    s.reg l = s.gpr[l.val - 1]'(by omega) := by
  simp [State.reg, h2, show l.val ≠ 0 by omega]

/-- A register other than %PC depends on the general purpose registers alone. -/
theorem reg_congr {s t : State} (l : Label) (hl : l ≠ 41) (h : t.gpr = s.gpr) : t.reg l = s.reg l := by
  have : l.val ≤ 40 := by
    have := l.isLt
    have : l.val ≠ 41 := fun e => hl (Fin.ext e)
    omega
  simp [State.reg, this, h]

/-- A target register reads the value written to it. -/
theorem reg_setReg_same (s : State) (l : Label) (v : Word) (h1 : 1 ≤ l.val) (h2 : l.val ≤ 40) :
    (s.setReg l v).reg l = v := by
  simp [reg_gpr _ l h1 h2, writeGpr, h1, h2]

/-- Every other register reads as before. -/
theorem reg_setReg_ne (s : State) (l k : Label) (v : Word) (h : k ≠ l) : (s.setReg l v).reg k = s.reg k := by
  have hv : k.val ≠ l.val := fun e => h (Fin.ext e)
  unfold State.reg
  split
  · rfl
  · split
    · by_cases hl : 1 ≤ l.val ∧ l.val ≤ 40
      · simp only [setReg_gpr, writeGpr, hl, and_self, dite_true]
        exact Vector.getElem_set_ne _ _ (by omega)
      · simp [writeGpr, hl]
    · rfl

/-- A label that is no target writes nothing. -/
theorem setReg_not_target (s : State) (l : Label) (v : Word) (h : ¬(1 ≤ l.val ∧ l.val ≤ 40)) :
    s.setReg l v = s := by
  simp [State.setReg, writeGpr, h]

/-- The sequential advance changes %PC only. -/
theorem reg_advance (s : State) (l : Label) (h : l ≠ 41) : s.advance.reg l = s.reg l := reg_congr l h rfl

/-- A jump changes %PC only. -/
theorem reg_setPc (s : State) (t : Word) (l : Label) (h : l ≠ 41) : (s.setPc t).reg l = s.reg l :=
  reg_congr l h rfl

/-- A change of memory changes no register. -/
@[simp] theorem reg_setMem (s : State) (m : Memory) (l : Label) : (s.setMem m).reg l = s.reg l := rfl

end Sys2Proof.Machine
end

