-- ==== Sys2Proof/Laws/Ops.lean ====
section
/-!
SUPPORT. For each shared operation, once, everything it can do. Later proofs cite these and unfold nothing.
-/
namespace Sys2Proof.Machine

/-! ## Immediates -/

@[simp] theorem extend_zero {n : Nat} (v : BitVec n) : extend .zero v = v.setWidth 32 := rfl

/-- An immediate operand has the immediate's own value (R60). -/
theorem immOperand_toNat {n : Nat} (v : BitVec n) (h : n ≤ 32) : (immOperand v).toNat = v.toNat := by
  have : v.toNat < 2 ^ 32 := lt_of_lt_of_le v.isLt (Nat.pow_le_pow_right (by omega) h)
  simpa [immOperand] using this

/-- An immediate operand as a number of 32 bits (R60). -/
theorem immOperand_eq_ofNat {n : Nat} (v : BitVec n) : immOperand v = BitVec.ofNat 32 v.toNat := by
  simp [immOperand, BitVec.ofNat_toNat]

/-- A loaded value has the narrow value's own value (R80 to R83). -/
theorem loadedValue_toNat {n : Nat} (v : BitVec n) (h : n ≤ 32) : (loadedValue v).toNat = v.toNat := by
  have : v.toNat < 2 ^ 32 := lt_of_lt_of_le v.isLt (Nat.pow_le_pow_right (by omega) h)
  simpa [loadedValue] using this

/-! ## Instruction ends -/

/-- The only next state of a register-writing instruction. -/
theorem writeResult_next {s t : State} {ra : Label} {v : Word} :
    writeResult s ra v = .next t ↔ t = (s.setReg ra v).advance := by
  simp [writeResult, eq_comm]

/-- The value a register-writing instruction leaves in its target. -/
theorem reg_writeResult_same (s : State) (ra : Label) (v : Word) (h1 : 1 ≤ ra.val) (h2 : ra.val ≤ 40) :
    (s.setReg ra v).advance.reg ra = v := by
  have : ra ≠ 41 := fun e => by subst e; simp at h2
  rw [reg_advance _ _ this, reg_setReg_same s ra v h1 h2]

/-- Every register but the target and %PC reads as before. -/
theorem reg_writeResult_ne (s : State) (ra l : Label) (v : Word) (h : l ≠ ra) (hp : l ≠ 41) :
    (s.setReg ra v).advance.reg l = s.reg l := by
  rw [reg_advance _ _ hp, reg_setReg_ne s ra l v h]

/-- The bytes of an aligned access do not wrap around the address space (R35). -/
theorem aligned_add_toNat {a : Word} {n i : Nat} (hn : n = 1 ∨ n = 2 ∨ n = 4) (h : a.toNat % n = 0) (hi : i < n) :
    (a + BitVec.ofNat 32 i).toNat = a.toNat + i := by
  have := a.isLt
  rw [BitVec.toNat_add, BitVec.toNat_ofNat, Nat.mod_eq_of_lt (show i < 2 ^ 32 by omega), Nat.mod_eq_of_lt]
  rcases hn with rfl | rfl | rfl <;> omega

/-- A data access passes its checks exactly when it is aligned and all its bytes are backed (R35, R36). -/
theorem dataFault_none {s : State} {ea : Word} {n : Nat} :
    dataFault settings s ea n = none ↔
      ea.toNat % n = 0 ∧ ∀ i < n, s.mem.backed (ea + BitVec.ofNat 32 i).toNat = true := by
  rw [← Memory.backedFrom_iff]
  simp only [dataFault, settings_misalignedData, true_and]
  split <;> (try split) <;> simp_all

/-- A misaligned data access fails its first check (R209, R212). -/
theorem dataFault_misaligned {s : State} {ea : Word} {n : Nat} (h : ea.toNat % n ≠ 0) :
    dataFault settings s ea n = some (.misalignedData s.pc ea) := by
  simp [dataFault, h]

/-- An aligned data access that touches an unbacked byte fails the second (R208, R212). -/
theorem dataFault_unbacked {s : State} {ea : Word} {n : Nat} (h : ea.toNat % n = 0) {i : Nat} (hi : i < n)
    (hb : s.mem.backed (ea + BitVec.ofNat 32 i).toNat = false) :
    dataFault settings s ea n = some (.dataAccess s.pc ea) := by
  have : s.mem.backedFrom ea n ≠ true := fun e => by
    rw [(Memory.backedFrom_iff _ _ _).1 e i hi] at hb
    exact Bool.noConfusion hb
  simp [dataFault, h, this]

/-- Under CODE_WRITES = visible a store has the checks of a data access and no other. -/
@[simp] theorem storeFault_settings (s : State) (ea : Word) (n : Nat) :
    storeFault settings s ea n = dataFault settings s ea n := by
  simp only [storeFault, writesText, settings_codeWrites]
  cases dataFault settings s ea n <;> simp

/-- A load that answers a next state passed its checks and wrote its target. -/
theorem loadResult_next {s t : State} {ra : Label} {ea : Word} {n : Nat} {v : Word} :
    loadResult settings s ra ea n v = .next t ↔
      dataFault settings s ea n = none ∧ t = (s.setReg ra v).advance := by
  unfold loadResult
  cases dataFault settings s ea n <;> simp [raise, writeResult_next]

/-- A store that answers a next state passed its checks and wrote its bytes. -/
theorem storeResult_next {s t : State} {ea : Word} {n : Nat} {m : Memory} :
    storeResult settings s ea n m = .next t ↔
      dataFault settings s ea n = none ∧ t = (s.setMem m).advance := by
  simp only [storeResult, storeFault_settings]
  cases dataFault settings s ea n <;> simp [raise, eq_comm]

/-- A division that answers a next state had a divisor other than 0 and wrote the quotient. -/
theorem divideResult_next {s t : State} {ra : Label} {p : Pair} :
    divideResult settings s ra p = .next t ↔
      p.2 ≠ 0#32 ∧ t = (s.setReg ra (quotient true p)).advance := by
  unfold divideResult
  by_cases h : p.2 = 0#32
  · simp [h, raise]
  · simp [h, writeResult_next]

/-- A division by zero raises DivideByZero (R210). -/
theorem divideResult_zero {s : State} {ra : Label} {p : Pair} (h : p.2 = 0#32) :
    divideResult settings s ra p = .fault (.divideByZero s.pc) := by
  simp [divideResult, h, raise]

/-- A conditional jump always answers a next state: taken or not. -/
theorem jumpIf_next {s t : State} {b : Bool} {target : Word} :
    jumpIf s b target = .next t ↔ (b = true ∧ t = s.setPc target) ∨ (b = false ∧ t = s.advance) := by
  cases b <;> simp [jumpIf, jumpTo, eq_comm]

/-! ## Shifts, in arithmetic -/

/-- SL is multiplication by a power of two, modulo 2^32 (R141). -/
theorem shiftLeft_toNat (v : Word) (n : Nat) : (shiftLeft v n).toNat = v.toNat * 2 ^ n % 2 ^ 32 := by
  unfold shiftLeft
  split
  · simp [BitVec.toNat_shiftLeft, Nat.shiftLeft_eq]
  · obtain ⟨k, rfl⟩ := Nat.exists_eq_add_of_le (show 32 ≤ n by omega)
    rw [Nat.pow_add, ← Nat.mul_assoc, Nat.mul_right_comm, Nat.mul_mod_left]
    rfl

/-- LRS is division by a power of two, rounded down (R141). -/
theorem shiftRight_toNat (v : Word) (n : Nat) : (shiftRight v n).toNat = v.toNat / 2 ^ n := by
  unfold shiftRight
  split
  · simp [BitVec.toNat_ushiftRight, Nat.shiftRight_eq_div_pow]
  · rw [Nat.div_eq_of_lt]
    · rfl
    · exact lt_of_lt_of_le v.isLt (Nat.pow_le_pow_right (by omega) (by omega))

/-- ARS is division of the signed value by a power of two, rounded down (R141). -/
theorem shiftRightArith_toInt (v : Word) (n : Nat) : (shiftRightArith v n).toInt = v.toInt / 2 ^ n := by
  rw [shiftRightArith, BitVec.toInt_sshiftRight, Int.shiftRight_eq_div_pow]
  by_cases h : n ≤ 31
  · rw [Nat.min_eq_left h]; norm_cast
  · rw [Nat.min_eq_right (by omega)]
    have h1 := BitVec.toInt_lt (x := v)
    have h2 := BitVec.le_toInt (x := v)
    have hn : (2 : Int) ^ 31 ≤ 2 ^ n := by
      exact_mod_cast Nat.pow_le_pow_right (show 2 > 0 by omega) (show 31 ≤ n by omega)
    norm_num at h1 h2 hn ⊢
    by_cases hv : 0 ≤ v.toInt
    · rw [Int.ediv_eq_zero_of_lt hv (by omega), Int.ediv_eq_zero_of_lt hv (by omega)]
    · rw [show v.toInt / 2147483648 = -1 by omega]
      symm
      rw [Int.ediv_eq_iff_of_pos (by omega)]
      constructor <;> omega

/-! ## The step -/

/-- What a step that answers a next state did: it fetched a word, the word decoded, the instruction ran. -/
theorem step_next {s t : State} :
    step s = .next t ↔ ∃ w i, fetch s = .ok w ∧ decode w = .ok i ∧ exec i s = .next t := by
  unfold step
  cases hf : fetch s with
  | error f => simp [raise]
  | ok w =>
    cases hd : decode w with
    | error r => cases r <;> simp [rejectWord, raise, hd]
    | ok i => simp [hd]

/-- A step whose word decodes runs the instruction. -/
theorem step_eq_exec {s : State} {w : Word} {i : Instr} (hf : fetch s = .ok w) (hd : decode w = .ok i) :
    step s = exec i s := by
  simp [step, hf, hd]

/-- When the fetch succeeds, and what it reads (R37). -/
theorem fetch_ok {s : State} {w : Word} :
    fetch s = .ok w ↔ s.pc.toNat % 4 = 0 ∧ (∀ i < 4, s.mem.backed (s.pc + BitVec.ofNat 32 i).toNat = true) ∧
      w = Memory.read32 .little s.mem s.pc := by
  rw [← Memory.backedFrom_iff]
  unfold fetch
  by_cases h : s.pc.toNat % 4 = 0
  · by_cases hb : s.mem.backedFrom s.pc 4 = true
    · simp [h, hb, eq_comm (a := w)]
    · simp [h, hb]
  · simp [h]

end Sys2Proof.Machine
end

