-- ==== Sys2Proof/Laws/Exec.lean ====
section
/-!
SUPPORT. Once, over all instructions, what one that answers a next state can have done. Proofs about every
instruction cite it and split over three cases, not over the constructors.
-/
namespace Sys2Proof.Machine
open Memory

/-- The next state of an instruction that writes a register. -/
def WroteRegister (i : Instr) (s t : State) : Prop :=
  isJump i = false ∧ isStore i = false ∧ takenTarget s i = none ∧
  ∃ ra v, targetOf i = some ra ∧ t = (s.setReg ra v).advance

/-- The next state of a store. -/
def WroteMemory (i : Instr) (s t : State) : Prop :=
  isJump i = false ∧ isStore i = true ∧ takenTarget s i = none ∧ targetOf i = none ∧
  ∃ m rb rc n, t = (s.setMem m).advance ∧ m.map = s.mem.map ∧ (s.Inv → m.wf = true) ∧
    accessOf i = some (rb, rc, n) ∧
    ∀ a, (∀ k < n, a ≠ (effectiveAddress s rb rc).toNat + k) → m.byte a = s.mem.byte a

/-- The next state of a jump, taken or not. -/
def Jumped (i : Instr) (s t : State) : Prop :=
  isJump i = true ∧ isStore i = false ∧ targetOf i = none ∧ t = s.setPc ((takenTarget s i).getD (s.pc + 4#32))

/-- A store that answers a next state wrote memory, when its write keeps the map and the canonical form and
changes only the `n` bytes from the effective address on. -/
theorem wroteMemory_of_storeResult {i : Instr} {s t : State} {rb rc : Label} {n : Nat} {m : Memory}
    (hi : isJump i = false ∧ isStore i = true ∧ takenTarget s i = none ∧ targetOf i = none)
    (ha : accessOf i = some (rb, rc, n)) (hn : n = 1 ∨ n = 2 ∨ n = 4) (hm : m.map = s.mem.map)
    (hw : s.Inv → s.mem.backedFrom (effectiveAddress s rb rc) n = true → m.wf = true)
    (hb : ∀ a, (∀ k < n, a ≠ (effectiveAddress s rb rc + BitVec.ofNat 32 k).toNat) → m.byte a = s.mem.byte a)
    (h : storeResult settings s (effectiveAddress s rb rc) n m = .next t) : WroteMemory i s t := by
  obtain ⟨hf, ht⟩ := storeResult_next.1 h
  obtain ⟨hal, hbk⟩ := dataFault_none.1 hf
  refine ⟨hi.1, hi.2.1, hi.2.2.1, hi.2.2.2, m, rb, rc, n, ht, hm, fun c => hw c ((backedFrom_iff _ _ _).2 hbk), ha,
    fun a hne => hb a fun k hk => ?_⟩
  rw [aligned_add_toNat hn hal hk]
  exact hne k hk

/-- A conditional jump jumped, when its condition and target are those of `takenTarget`. -/
theorem jumped_of_jumpIf {i : Instr} {s t : State} {b : Bool} {x : Word}
    (hi : isJump i = true ∧ isStore i = false ∧ targetOf i = none)
    (hx : takenTarget s i = if b then some x else none) (h : jumpIf s b x = .next t) : Jumped i s t := by
  refine ⟨hi.1, hi.2.1, hi.2.2, ?_⟩
  rcases jumpIf_next.1 h with ⟨rfl, rfl⟩ | ⟨rfl, rfl⟩ <;> rw [hx] <;> rfl

/-- An instruction that answers a next state wrote a register, wrote memory or jumped. -/
theorem exec_next_cases {i : Instr} {s t : State} (h : exec i s = .next t) :
    WroteRegister i s t ∨ WroteMemory i s t ∨ Jumped i s t := by
  cases i with
  | store8 ra rb rc =>
    exact .inr (.inl (wroteMemory_of_storeResult ⟨rfl, rfl, rfl, rfl⟩ rfl (by simp) (by simp)
      (fun hw hb => wf_write8 hw _ _ (by simpa using (backedFrom_iff _ _ _).1 hb 0 (by omega)))
      (fun a ha => byte_write8_ne _ _ (by simpa using ha 0 (by omega))) h))
  | store16 ra rb rc =>
    exact .inr (.inl (wroteMemory_of_storeResult ⟨rfl, rfl, rfl, rfl⟩ rfl (by simp) (by simp)
      (fun hw hb => wf_write16 _ hw _ _ hb) (fun a ha => byte_write16_ne _ _ _ ha) h))
  | store32 ra rb rc =>
    exact .inr (.inl (wroteMemory_of_storeResult ⟨rfl, rfl, rfl, rfl⟩ rfl (by simp) (by simp)
      (fun hw hb => wf_write32 _ hw _ _ hb) (fun a ha => byte_write32_ne _ _ _ ha) h))
  | load8Mem ra rb rc => exact .inl ⟨rfl, rfl, rfl, ra, _, rfl, (loadResult_next.1 h).2⟩
  | load16Mem ra rb rc => exact .inl ⟨rfl, rfl, rfl, ra, _, rfl, (loadResult_next.1 h).2⟩
  | load32Mem ra rb rc => exact .inl ⟨rfl, rfl, rfl, ra, _, rfl, (loadResult_next.1 h).2⟩
  | divRR ra rb rc => exact .inl ⟨rfl, rfl, rfl, ra, _, rfl, (divideResult_next.1 h).2⟩
  | divRI ra rb imm10 => exact .inl ⟨rfl, rfl, rfl, ra, _, rfl, (divideResult_next.1 h).2⟩
  | divIR ra rb imm10 => exact .inl ⟨rfl, rfl, rfl, ra, _, rfl, (divideResult_next.1 h).2⟩
  | jmpImm imm22 => cases h; exact .inr (.inr ⟨rfl, rfl, rfl, by rw [immOperand_eq_ofNat]; rfl⟩)
  | jmpReg rb rc => cases h; exact .inr (.inr ⟨rfl, rfl, rfl, rfl⟩)
  | ojmpImm ra imm16 =>
    exact .inr (.inr (jumped_of_jumpIf ⟨rfl, rfl, rfl⟩ (by simp [takenTarget, isOne, immOperand_eq_ofNat]) h))
  | ojmpReg ra rb rc =>
    exact .inr (.inr (jumped_of_jumpIf ⟨rfl, rfl, rfl⟩ (by simp [takenTarget, isOne]) h))
  | zjmpImm ra imm16 =>
    exact .inr (.inr (jumped_of_jumpIf ⟨rfl, rfl, rfl⟩ (by simp [takenTarget, isZero, immOperand_eq_ofNat]) h))
  | zjmpReg ra rb rc =>
    exact .inr (.inr (jumped_of_jumpIf ⟨rfl, rfl, rfl⟩ (by simp [takenTarget, isZero]) h))
  | _ ra => cases h; exact .inl ⟨rfl, rfl, rfl, ra, _, rfl, rfl⟩

end Sys2Proof.Machine
end

