-- ==== Sys2Proof/Laws/PerInstr.lean ====
section
/-!
SUPPORT. Per-instruction facts about the syntax, one lemma per constructor. Family `OpcodeField`: the word an
instruction is encoded as carries the opcode of the instruction's row (R64) in bits 31:22 (R51).
-/
namespace Sys2Proof.Laws.OpcodeField

/-- The opcode field of the instruction's word is its row's opcode. -/
def Statement (i : Instr) : Prop := ∀ w, encode i = some w → opField w = i.opcode

theorem opField_layout (i : Instr) : opField (layout i) = i.opcode := by
  cases i <;> simp [layout, Instr.opcode]

theorem of_layout (i : Instr) : Statement i := by
  intro w h
  unfold encode encodeWith at h
  split at h
  · rw [← Option.some.inj h, opField_layout]
  · simp at h

theorem load8Imm (ra : Label) (imm8 : BitVec 8) : Statement (.load8Imm ra imm8) := of_layout _
theorem load8Mem (ra : Label) (rb : Label) (rc : Label) : Statement (.load8Mem ra rb rc) := of_layout _
theorem load16Imm (ra : Label) (imm16 : BitVec 16) : Statement (.load16Imm ra imm16) := of_layout _
theorem load16Mem (ra : Label) (rb : Label) (rc : Label) : Statement (.load16Mem ra rb rc) := of_layout _
theorem load32Mem (ra : Label) (rb : Label) (rc : Label) : Statement (.load32Mem ra rb rc) := of_layout _
theorem store8 (ra : Label) (rb : Label) (rc : Label) : Statement (.store8 ra rb rc) := of_layout _
theorem store16 (ra : Label) (rb : Label) (rc : Label) : Statement (.store16 ra rb rc) := of_layout _
theorem store32 (ra : Label) (rb : Label) (rc : Label) : Statement (.store32 ra rb rc) := of_layout _
theorem move (ra : Label) (rc : Label) : Statement (.move ra rc) := of_layout _
theorem addRR (ra : Label) (rb : Label) (rc : Label) : Statement (.addRR ra rb rc) := of_layout _
theorem addRI (ra : Label) (rb : Label) (imm10 : BitVec 10) : Statement (.addRI ra rb imm10) := of_layout _
theorem subRR (ra : Label) (rb : Label) (rc : Label) : Statement (.subRR ra rb rc) := of_layout _
theorem subRI (ra : Label) (rb : Label) (imm10 : BitVec 10) : Statement (.subRI ra rb imm10) := of_layout _
theorem subIR (ra : Label) (rb : Label) (imm10 : BitVec 10) : Statement (.subIR ra rb imm10) := of_layout _
theorem bandRR (ra : Label) (rb : Label) (rc : Label) : Statement (.bandRR ra rb rc) := of_layout _
theorem bandRI (ra : Label) (rb : Label) (imm10 : BitVec 10) : Statement (.bandRI ra rb imm10) := of_layout _
theorem borRR (ra : Label) (rb : Label) (rc : Label) : Statement (.borRR ra rb rc) := of_layout _
theorem borRI (ra : Label) (rb : Label) (imm10 : BitVec 10) : Statement (.borRI ra rb imm10) := of_layout _
theorem bnotR (ra : Label) (rc : Label) : Statement (.bnotR ra rc) := of_layout _
theorem bnotI (ra : Label) (imm16 : BitVec 16) : Statement (.bnotI ra imm16) := of_layout _
theorem bxorRR (ra : Label) (rb : Label) (rc : Label) : Statement (.bxorRR ra rb rc) := of_layout _
theorem bxorRI (ra : Label) (rb : Label) (imm10 : BitVec 10) : Statement (.bxorRI ra rb imm10) := of_layout _
theorem rand (ra : Label) (rc : Label) : Statement (.rand ra rc) := of_layout _
theorem ror (ra : Label) (rc : Label) : Statement (.ror ra rc) := of_layout _
theorem rxor (ra : Label) (rc : Label) : Statement (.rxor ra rc) := of_layout _
theorem mulRR (ra : Label) (rb : Label) (rc : Label) : Statement (.mulRR ra rb rc) := of_layout _
theorem mulRI (ra : Label) (rb : Label) (imm10 : BitVec 10) : Statement (.mulRI ra rb imm10) := of_layout _
theorem divRR (ra : Label) (rb : Label) (rc : Label) : Statement (.divRR ra rb rc) := of_layout _
theorem divRI (ra : Label) (rb : Label) (imm10 : BitVec 10) : Statement (.divRI ra rb imm10) := of_layout _
theorem divIR (ra : Label) (rb : Label) (imm10 : BitVec 10) : Statement (.divIR ra rb imm10) := of_layout _
theorem slRR (ra : Label) (rb : Label) (rc : Label) : Statement (.slRR ra rb rc) := of_layout _
theorem slRI (ra : Label) (rb : Label) (imm10 : BitVec 10) : Statement (.slRI ra rb imm10) := of_layout _
theorem slIR (ra : Label) (rb : Label) (imm10 : BitVec 10) : Statement (.slIR ra rb imm10) := of_layout _
theorem slII (ra : Label) (immA : BitVec 10) (immB : BitVec 6) : Statement (.slII ra immA immB) := of_layout _
theorem lrsRR (ra : Label) (rb : Label) (rc : Label) : Statement (.lrsRR ra rb rc) := of_layout _
theorem lrsRI (ra : Label) (rb : Label) (imm10 : BitVec 10) : Statement (.lrsRI ra rb imm10) := of_layout _
theorem lrsIR (ra : Label) (rb : Label) (imm10 : BitVec 10) : Statement (.lrsIR ra rb imm10) := of_layout _
theorem lrsII (ra : Label) (immA : BitVec 10) (immB : BitVec 6) : Statement (.lrsII ra immA immB) := of_layout _
theorem arsRR (ra : Label) (rb : Label) (rc : Label) : Statement (.arsRR ra rb rc) := of_layout _
theorem arsRI (ra : Label) (rb : Label) (imm10 : BitVec 10) : Statement (.arsRI ra rb imm10) := of_layout _
theorem arsIR (ra : Label) (rb : Label) (imm10 : BitVec 10) : Statement (.arsIR ra rb imm10) := of_layout _
theorem arsII (ra : Label) (immA : BitVec 10) (immB : BitVec 6) : Statement (.arsII ra immA immB) := of_layout _
theorem lcsRR (ra : Label) (rb : Label) (rc : Label) : Statement (.lcsRR ra rb rc) := of_layout _
theorem lcsRI (ra : Label) (rb : Label) (imm10 : BitVec 10) : Statement (.lcsRI ra rb imm10) := of_layout _
theorem lcsIR (ra : Label) (rb : Label) (imm10 : BitVec 10) : Statement (.lcsIR ra rb imm10) := of_layout _
theorem lcsII (ra : Label) (immA : BitVec 10) (immB : BitVec 6) : Statement (.lcsII ra immA immB) := of_layout _
theorem gtRR (ra : Label) (rb : Label) (rc : Label) : Statement (.gtRR ra rb rc) := of_layout _
theorem gtRI (ra : Label) (rb : Label) (imm10 : BitVec 10) : Statement (.gtRI ra rb imm10) := of_layout _
theorem eqRR (ra : Label) (rb : Label) (rc : Label) : Statement (.eqRR ra rb rc) := of_layout _
theorem eqRI (ra : Label) (rb : Label) (imm10 : BitVec 10) : Statement (.eqRI ra rb imm10) := of_layout _
theorem ltRR (ra : Label) (rb : Label) (rc : Label) : Statement (.ltRR ra rb rc) := of_layout _
theorem ltRI (ra : Label) (rb : Label) (imm10 : BitVec 10) : Statement (.ltRI ra rb imm10) := of_layout _
theorem gteRR (ra : Label) (rb : Label) (rc : Label) : Statement (.gteRR ra rb rc) := of_layout _
theorem gteRI (ra : Label) (rb : Label) (imm10 : BitVec 10) : Statement (.gteRI ra rb imm10) := of_layout _
theorem lteRR (ra : Label) (rb : Label) (rc : Label) : Statement (.lteRR ra rb rc) := of_layout _
theorem lteRI (ra : Label) (rb : Label) (imm10 : BitVec 10) : Statement (.lteRI ra rb imm10) := of_layout _
theorem jmpImm (imm22 : BitVec 22) : Statement (.jmpImm imm22) := of_layout _
theorem jmpReg (rb : Label) (rc : Label) : Statement (.jmpReg rb rc) := of_layout _
theorem ojmpImm (ra : Label) (imm16 : BitVec 16) : Statement (.ojmpImm ra imm16) := of_layout _
theorem ojmpReg (ra : Label) (rb : Label) (rc : Label) : Statement (.ojmpReg ra rb rc) := of_layout _
theorem zjmpImm (ra : Label) (imm16 : BitVec 16) : Statement (.zjmpImm ra imm16) := of_layout _
theorem zjmpReg (ra : Label) (rb : Label) (rc : Label) : Statement (.zjmpReg ra rb rc) := of_layout _

end Sys2Proof.Laws.OpcodeField
end

