-- ==== Sys2Proof/Laws/Runs.lean ====
section
/-!
SUPPORT. Runs (spec/70_reset_and_hazards.md R232, R235): they hold of any step function, and turn a statement
about one step into one about a run.
-/
namespace Sys2Proof.Machine

/-- A run of `k + j` steps is one of `k` steps and then one of `j`. -/
theorem reaches_add {s t : State} {k j : Nat} : Reaches s (k + j) t ↔ ∃ u, Reaches s k u ∧ Reaches u j t := by
  induction k generalizing s with
  | zero => simp [Reaches]
  | succ k ih =>
    rw [show k + 1 + j = (k + j) + 1 by omega]
    constructor
    · rintro ⟨v, h1, h2⟩
      obtain ⟨u, h3, h4⟩ := ih.1 h2
      exact ⟨u, ⟨v, h1, h3⟩, h4⟩
    · rintro ⟨u, ⟨v, h1, h3⟩, h4⟩
      exact ⟨v, h1, ih.2 ⟨u, h3, h4⟩⟩

/-- The state after `k` steps is one state. -/
theorem reaches_unique {s t u : State} {k : Nat} (h : Reaches s k t) (g : Reaches s k u) : t = u := by
  induction k generalizing s with
  | zero => exact h.trans g.symm
  | succ k ih =>
    obtain ⟨v, h1, h2⟩ := h
    obtain ⟨w, g1, g2⟩ := g
    obtain rfl : v = w := by rw [h1] at g1; exact Host.Outcome.next.inj g1
    exact ih h2 g2

/-- From a final state a run goes nowhere else (R232). -/
theorem reaches_final {t u : State} (h : t.Final) {k : Nat} (g : Reaches t k u) : u = t := by
  induction k with
  | zero => exact g
  | succ k ih =>
    obtain ⟨v, h1, h2⟩ := g
    obtain rfl : t = v := by rw [State.Final] at h; rw [h] at h1; exact Host.Outcome.next.inj h1
    exact ih h2

/-- An invariant that every step keeps holds of every state a run reaches. -/
theorem invariant_of_reaches {P : State → Prop} (hp : ∀ s t, P s → step s = .next t → P t) {s t : State} {k : Nat}
    (hs : P s) (h : Reaches s k t) : P t := by
  induction k generalizing s with
  | zero => exact (show t = s from h) ▸ hs
  | succ k ih =>
    obtain ⟨u, h1, h2⟩ := h
    exact ih (hp s u hs h1) h2

/-- A run that ends in a final state ends in no other and never stops (R232). -/
theorem endsIn_unique_and_safe {s t : State} (h : EndsIn s t) : (∀ u, EndsIn s u → u = t) ∧ SafeRun s := by
  obtain ⟨⟨k, hk⟩, hf⟩ := h
  have meets : ∀ j u, Reaches s j u → u = t ∨ ∃ d, Reaches u (d + 1) t := fun j u hu => by
    rcases Nat.lt_or_ge j k with c | c
    · obtain ⟨d, rfl⟩ := Nat.exists_eq_add_of_lt c
      obtain ⟨v, h1, h2⟩ := reaches_add.1 (show Reaches s (j + (d + 1)) t from hk)
      exact .inr ⟨d, reaches_unique h1 hu ▸ h2⟩
    · obtain ⟨d, rfl⟩ := Nat.exists_eq_add_of_le c
      obtain ⟨v, h1, h2⟩ := reaches_add.1 hu
      exact .inl (reaches_final hf (reaches_unique h1 hk ▸ h2))
  refine ⟨?_, fun j u hu => ?_⟩
  · rintro u ⟨⟨j, hu⟩, hg⟩
    rcases meets j u hu with e | ⟨d, hd⟩
    · exact e
    · exact (reaches_final hg hd).symm
  · rcases meets j u hu with rfl | ⟨d, v, hv, _⟩
    · exact ⟨u, hf⟩
    · exact ⟨v, hv⟩

end Sys2Proof.Machine
end

