-- ==== Sys2Proof/Laws/Words.lean ====
section
/-!
SUPPORT. The encoder's layouts are the positional words of Safety.lean (spec/30_encoding.md R53 to R59).
-/
namespace Sys2Proof.Machine

/-- Concatenation, in arithmetic. -/
theorem toNat_append_add {m n : Nat} (x : BitVec m) (y : BitVec n) :
    (x ++ y).toNat = x.toNat * 2 ^ n + y.toNat := by
  rw [BitVec.toNat_append, ← Nat.shiftLeft_add_eq_or_of_lt y.isLt, Nat.shiftLeft_eq]

theorem layThree_eq (op : Nat) (ra rb rc : Label) :
    layThree (BitVec.ofNat 10 op) ra rb rc = wordThree op ra rb rc := by
  apply BitVec.eq_of_toNat_eq
  have := ra.isLt; have := rb.isLt; have := rc.isLt
  simp only [layThree, wordThree, toNat_append_add, BitVec.toNat_ofNat, labelField_toNat]
  omega
theorem layREG2_eq (op : Nat) (ra rc : Label) :
    layREG2 (BitVec.ofNat 10 op) ra rc = wordTwo op ra rc := by
  apply BitVec.eq_of_toNat_eq
  have := ra.isLt; have := rc.isLt
  simp only [layREG2, wordTwo, toNat_append_add, BitVec.toNat_ofNat, labelField_toNat]
  omega
theorem layI8_eq (op : Nat) (ra : Label) (v : BitVec 8) :
    layI8 (BitVec.ofNat 10 op) ra v = wordImm op ra v := by
  apply BitVec.eq_of_toNat_eq
  have := ra.isLt; have := v.isLt
  simp only [layI8, wordImm, toNat_append_add, BitVec.toNat_ofNat, labelField_toNat]
  omega
theorem layI16_eq (op : Nat) (ra : Label) (v : BitVec 16) :
    layI16 (BitVec.ofNat 10 op) ra v = wordImm op ra v := by
  apply BitVec.eq_of_toNat_eq
  have := ra.isLt; have := v.isLt
  simp only [layI16, wordImm, toNat_append_add, BitVec.toNat_ofNat, labelField_toNat]
  omega
theorem layRI_eq (op : Nat) (ra rb : Label) (v : BitVec 10) :
    layRI (BitVec.ofNat 10 op) ra rb v = wordRI op ra rb v := by
  apply BitVec.eq_of_toNat_eq
  have := ra.isLt; have := rb.isLt
  have h6 : v.toNat / 64 < 16 := by have := v.isLt; omega
  simp only [layRI, wordRI, toNat_append_add, BitVec.toNat_ofNat, labelField_toNat, BitVec.extractLsb'_toNat,
    Nat.shiftRight_eq_div_pow, Nat.pow_zero, Nat.div_one, Nat.reducePow, Nat.mod_eq_of_lt h6]
  omega
theorem layII_eq (op : Nat) (ra : Label) (v : BitVec 10) (u : BitVec 6) :
    layII (BitVec.ofNat 10 op) ra v u = wordII op ra v u := by
  apply BitVec.eq_of_toNat_eq
  have := ra.isLt; have := u.isLt; have := v.isLt
  simp only [layII, wordII, toNat_append_add, BitVec.toNat_ofNat, labelField_toNat]
  omega
theorem layJ_eq (op : Nat) (v : BitVec 22) :
    layJ (BitVec.ofNat 10 op) v = wordJ op v := by
  apply BitVec.eq_of_toNat_eq
  have := v.isLt
  simp only [layJ, wordJ, toNat_append_add, BitVec.toNat_ofNat]
  omega
theorem layJR_eq (op : Nat) (rb rc : Label) :
    layJR (BitVec.ofNat 10 op) rb rc = wordJR op rb rc := by
  apply BitVec.eq_of_toNat_eq
  have := rb.isLt; have := rc.isLt
  simp only [layJR, wordJR, toNat_append_add, BitVec.toNat_ofNat, labelField_toNat]
  omega

end Sys2Proof.Machine
end

