-- ==== Sys2Proof/Tests/Slice0.lean ====
section
/-!
SUPPORT. The model's own tests. Words, states before and values after are those of spec/95_test_vectors.md (E<n>,
V<n>) and of the instruction rules' examples (R<n>). Then one witness for each statement with hypotheses.
-/
namespace Sys2Proof.Machine

/-! ## Helpers -/

/-- The vectors' state: `pc` = 0x100, the word there, sixteen data bytes at 0x1000, the registers and bytes
listed. -/
def mk (regs : List (Label × Word)) (bytes : List Host.Cell) (w : Word) : State :=
  let s : State := State.boot 0x100#32 ⟨[⟨0x100, 4⟩, ⟨0x1000, 16⟩], []⟩
  let s := regs.foldl (fun s p => s.setReg p.1 p.2) s
  s.setMem ((bytes.foldl (fun m p => m.setByte p.1 p.2) s.mem).write32 .little 0x100#32 w)

/-- The outcome is a next state with this property. -/
def runs (r : Result) (p : State → Bool) : Bool :=
  match r with
  | .next t => p t
  | .fault _ => false
  | .refused _ => false

/-- The outcome is this fault. -/
def stops (r : Result) (f : Fault) : Bool :=
  match r with
  | .next _ => false
  | .fault g => g == f
  | .refused _ => false

/-- The word decodes to this instruction under these settings. -/
def decodesWith (c : Settings) (w : Word) (i : Instr) : Bool :=
  match decodeWith c w with
  | .ok j => j == i
  | .error _ => false

/-- The step on the word raises IllegalInstruction. -/
def illegal (w : Word) : Bool := stops (step (mk [(1, 1#32), (2, 2#32)] [] w)) (.illegalInstruction 0x100#32 w)

/-- OPC206 = BOR_RR. -/
def borSettings : Settings := { settings with opc206 := .borRR }

/-! ## Well-formedness: one ill-formed term for each range, and a term at its edge -/

theorem test_wf_target_zero : (Instr.addRR 0 1 2).wf = false := by decide
theorem test_wf_target_pc : (Instr.move 41 1).wf = false := by decide
theorem test_wf_store_data_zero : (Instr.store8 0 1 2).wf = false := by decide
theorem test_wf_store_data_pc : (Instr.store32 41 1 2).wf = false := by decide
theorem test_wf_base_zero : (Instr.load32Mem 1 0 2).wf = false := by decide
theorem test_wf_index_pc : (Instr.jmpReg 1 41).wf = false := by decide
theorem test_wf_reduction_zero : (Instr.rand 1 0).wf = false := by decide
theorem test_wf_edges : ((Instr.load32Mem 40 41 0).wf && (Instr.addRR 1 0 41).wf && (Instr.rxor 40 41).wf &&
    (Instr.zjmpReg 41 1 40).wf) = true := by decide

/-! ## Decoding: a word of every constructor -/

theorem test_decode_memory_1 : (
    decodesWith settings 0x00410008#32 (.load8Imm 1 8#8) &&
    decodesWith settings 0x00820040#32 (.load8Mem 2 1 0) &&
    decodesWith settings 0x00C10021#32 (.load16Imm 1 33#16) &&
    decodesWith settings 0x01020040#32 (.load16Mem 2 1 0) &&
    decodesWith settings 0x01410A41#32 (.load32Mem 1 41 1) &&
    decodesWith settings 0x01810080#32 (.store8 1 2 0) &&
    decodesWith settings 0x01C10080#32 (.store16 1 2 0) &&
    decodesWith settings 0x02010080#32 (.store32 1 2 0)) = true := by decide

theorem test_decode_register_1 : (
    decodesWith settings 0x02420001#32 (.move 2 1)) = true := by decide

theorem test_decode_integer_1 : (
    decodesWith settings 0x80030042#32 (.addRR 3 1 2) &&
    decodesWith settings 0x8041F07F#32 (.addRI 1 1 1023#10) &&
    decodesWith settings 0x80830042#32 (.subRR 3 1 2) &&
    decodesWith settings 0x80C2007F#32 (.subRI 2 1 63#10) &&
    decodesWith settings 0x81020043#32 (.subIR 2 1 3#10) &&
    decodesWith settings 0x81430042#32 (.bandRR 3 1 2) &&
    decodesWith settings 0x8182007F#32 (.bandRI 2 1 63#10) &&
    decodesWith borSettings 0x81830042#32 (.borRR 3 1 2)) = true := by decide

theorem test_decode_integer_2 : (
    decodesWith settings 0x81C2007F#32 (.borRI 2 1 63#10) &&
    decodesWith settings 0x82020001#32 (.bnotR 2 1) &&
    decodesWith settings 0x8242003F#32 (.bnotI 2 63#16) &&
    decodesWith settings 0x82830042#32 (.bxorRR 3 1 2) &&
    decodesWith settings 0x82C2007F#32 (.bxorRI 2 1 63#10) &&
    decodesWith settings 0x83020001#32 (.rand 2 1) &&
    decodesWith settings 0x83420001#32 (.ror 2 1) &&
    decodesWith settings 0x83820001#32 (.rxor 2 1)) = true := by decide

theorem test_decode_integer_3 : (
    decodesWith settings 0x83C30042#32 (.mulRR 3 1 2) &&
    decodesWith settings 0x8402007F#32 (.mulRI 2 1 63#10) &&
    decodesWith settings 0x84430042#32 (.divRR 3 1 2) &&
    decodesWith settings 0x8482007F#32 (.divRI 2 1 63#10) &&
    decodesWith settings 0x84C20043#32 (.divIR 2 1 3#10)) = true := by decide

theorem test_decode_shift_1 : (
    decodesWith settings 0x85030042#32 (.slRR 3 1 2) &&
    decodesWith settings 0x8542007F#32 (.slRI 2 1 63#10) &&
    decodesWith settings 0x85820043#32 (.slIR 2 1 3#10) &&
    decodesWith settings 0x85C1FFC3#32 (.slII 1 1023#10 3#6) &&
    decodesWith settings 0x86030042#32 (.lrsRR 3 1 2) &&
    decodesWith settings 0x8642007F#32 (.lrsRI 2 1 63#10) &&
    decodesWith settings 0x86820043#32 (.lrsIR 2 1 3#10) &&
    decodesWith settings 0x86C1FFC3#32 (.lrsII 1 1023#10 3#6)) = true := by decide

theorem test_decode_shift_2 : (
    decodesWith settings 0x87030042#32 (.arsRR 3 1 2) &&
    decodesWith settings 0x8742007F#32 (.arsRI 2 1 63#10) &&
    decodesWith settings 0x87820043#32 (.arsIR 2 1 3#10) &&
    decodesWith settings 0x87C1FFC3#32 (.arsII 1 1023#10 3#6) &&
    decodesWith settings 0x88030042#32 (.lcsRR 3 1 2) &&
    decodesWith settings 0x8842007F#32 (.lcsRI 2 1 63#10) &&
    decodesWith settings 0x88820043#32 (.lcsIR 2 1 3#10) &&
    decodesWith settings 0x88C1FFC3#32 (.lcsII 1 1023#10 3#6)) = true := by decide

theorem test_decode_compare_1 : (
    decodesWith settings 0x90030042#32 (.gtRR 3 1 2) &&
    decodesWith settings 0x9042007F#32 (.gtRI 2 1 63#10) &&
    decodesWith settings 0x90830042#32 (.eqRR 3 1 2) &&
    decodesWith settings 0x90C2007F#32 (.eqRI 2 1 63#10) &&
    decodesWith settings 0x91030042#32 (.ltRR 3 1 2) &&
    decodesWith settings 0x9142007F#32 (.ltRI 2 1 63#10) &&
    decodesWith settings 0x91830042#32 (.gteRR 3 1 2) &&
    decodesWith settings 0x91C2007F#32 (.gteRI 2 1 63#10)) = true := by decide

theorem test_decode_compare_2 : (
    decodesWith settings 0x92030042#32 (.lteRR 3 1 2) &&
    decodesWith settings 0x9242007F#32 (.lteRI 2 1 63#10)) = true := by decide

theorem test_decode_jump_1 : (
    decodesWith settings 0xC00000DF#32 (.jmpImm 223#22) &&
    decodesWith settings 0xC0400A42#32 (.jmpReg 41 2) &&
    decodesWith settings 0xC08100E0#32 (.ojmpImm 1 224#16) &&
    decodesWith settings 0xC0C10A42#32 (.ojmpReg 1 41 2) &&
    decodesWith settings 0xC10100E0#32 (.zjmpImm 1 224#16) &&
    decodesWith settings 0xC1410A42#32 (.zjmpReg 1 41 2)) = true := by decide

/-! ## Words that are no instruction (V53, V140 to V156) -/

theorem test_illegal_words : (
    illegal 0x83020000#32 &&
    illegal 0x00000000#32 &&
    illegal 0xFFFFFFFF#32 &&
    illegal 0x02800000#32 &&
    illegal 0x89000000#32 &&
    illegal 0x92800000#32 &&
    illegal 0xC1800000#32 &&
    illegal 0x00400008#32 &&
    illegal 0x00690008#32 &&
    illegal 0x006A0008#32 &&
    illegal 0x00410108#32 &&
    illegal 0x02410041#32 &&
    illegal 0x80031042#32 &&
    illegal 0x8003006A#32 &&
    illegal 0x00820000#32 &&
    illegal 0x00820069#32 &&
    illegal 0xC0401A42#32 &&
    illegal 0xC0AA00E0#32) = true := by decide

/-! ## One step of each instruction -/

/-- V2: `LOAD8 255, %A1`. -/
theorem test_load8_imm_V2 : runs (step (mk [(1, 0xFFFFFFFF#32)] [] 0x004100FF#32))
    (fun t => t.reg 1 == 0x000000FF#32 && t.pc == 0x104#32) = true := by decide

/-- V5: `LOAD8 [%A1], %A2`. -/
theorem test_load8_mem_V5 : runs (step (mk [(1, 0x00001001#32)] [(0x1001, 0x80#8)] 0x00820040#32))
    (fun t => t.reg 2 == 0x00000080#32 && t.pc == 0x104#32) = true := by decide

/-- V12: `LOAD8 [%A1 + %A2], %A3`. -/
theorem test_load8_mem_V12 : runs (step (mk [(1, 0xFFFFFFFF#32), (2, 0x00001002#32)] [(0x1001, 0x5A#8)] 0x00830042#32))
    (fun t => t.reg 3 == 0x0000005A#32 && t.pc == 0x104#32) = true := by decide

/-- V3: `LOAD16 0xFFFF, %DDS`. -/
theorem test_load16_imm_V3 : runs (step (mk [] [] 0x00E8FFFF#32))
    (fun t => t.reg 40 == 0x0000FFFF#32 && t.pc == 0x104#32) = true := by decide

/-- V6: `LOAD16 [%A1], %A2`. -/
theorem test_load16_mem_V6 : runs (step (mk [(1, 0x00001002#32)] [(0x1002, 0x34#8), (0x1003, 0x92#8)] 0x01020040#32))
    (fun t => t.reg 2 == 0x00009234#32 && t.pc == 0x104#32) = true := by decide

/-- V7: `LOAD16 [%A1], %A2`. -/
theorem test_load16_mem_V7 : stops (step (mk [(1, 0x00001001#32)] [] 0x01020040#32)) (.misalignedData 0x100 0x1001) = true := by decide

/-- V9: `LOAD32 [%PC + %A1], %A1`. -/
theorem test_load32_mem_V9 : runs (step (mk [(1, 0x00000F00#32)] [(0x1000, 0xEF#8), (0x1001, 0xBE#8), (0x1002, 0xAD#8), (0x1003, 0xDE#8)] 0x01410A41#32))
    (fun t => t.reg 1 == 0xDEADBEEF#32 && t.pc == 0x104#32) = true := by decide

/-- V11: `LOAD32 [%A1], %A2`. -/
theorem test_load32_mem_V11 : stops (step (mk [(1, 0x00002000#32)] [] 0x01420040#32)) (.dataAccess 0x100 0x2000) = true := by decide

/-- V13: `STORE8 %A1, [%A2]`. -/
theorem test_store8_V13 : runs (step (mk [(1, 0x12345678#32), (2, 0x00001003#32)] [] 0x01810080#32))
    (fun t => t.mem.byte 0x1003 == 0x78#8 && t.pc == 0x104#32) = true := by decide

/-- V14: `STORE16 %A1, [%A2 + %A3]`. -/
theorem test_store16_V14 : runs (step (mk [(1, 0x12345678#32), (2, 0x00001000#32), (3, 0x00000002#32)] [] 0x01C10083#32))
    (fun t => t.mem.byte 0x1002 == 0x78#8 && t.mem.byte 0x1003 == 0x56#8 && t.pc == 0x104#32) = true := by decide

/-- V17: `STORE16 %A1, [%A2]`. -/
theorem test_store16_V17 : stops (step (mk [(1, 0x00000001#32), (2, 0x00001010#32)] [] 0x01C10080#32)) (.dataAccess 0x100 0x1010) = true := by decide

/-- V15: `STORE32 %A1, [%A2]`. -/
theorem test_store32_V15 : runs (step (mk [(1, 0x12345678#32), (2, 0x00001008#32)] [] 0x02010080#32))
    (fun t => t.mem.byte 0x1008 == 0x78#8 && t.mem.byte 0x1009 == 0x56#8 && t.mem.byte 0x100A == 0x34#8 && t.mem.byte 0x100B == 0x12#8 && t.pc == 0x104#32) = true := by decide

/-- V16: `STORE32 %A1, [%A2]`. -/
theorem test_store32_V16 : stops (step (mk [(1, 0x00000001#32), (2, 0x00001009#32)] [] 0x02010080#32)) (.misalignedData 0x100 0x1009) = true := by decide

/-- V20: `MOVE %A2, %A1`. -/
theorem test_move_V20 : runs (step (mk [(1, 0xCAFEF00D#32)] [] 0x02420001#32))
    (fun t => t.reg 2 == 0xCAFEF00D#32 && t.pc == 0x104#32) = true := by decide

/-- V22: `MOVE %A1, %PC`. -/
theorem test_move_V22 : runs (step (mk [] [] 0x02410029#32))
    (fun t => t.reg 1 == 0x00000100#32 && t.pc == 0x104#32) = true := by decide

/-- V30: `ADD %A1, %A2, %A3`. -/
theorem test_add_rr_V30 : runs (step (mk [(1, 0xFFFFFFFF#32), (2, 0x00000001#32)] [] 0x80030042#32))
    (fun t => t.reg 3 == 0x00000000#32 && t.pc == 0x104#32) = true := by decide

/-- V32: `ADD %A1, 1023, %A1`. -/
theorem test_add_ri_V32 : runs (step (mk [(1, 0x00000000#32)] [] 0x8041F07F#32))
    (fun t => t.reg 1 == 0x000003FF#32 && t.pc == 0x104#32) = true := by decide

/-- V33: `ADD %PC, 8, %AR1`. -/
theorem test_add_ri_V33 : runs (step (mk [] [] 0x80450A48#32))
    (fun t => t.reg 5 == 0x00000108#32 && t.pc == 0x104#32) = true := by decide

/-- V34: `SUB %A1, %A2, %A3`. -/
theorem test_sub_rr_V34 : runs (step (mk [(1, 0x00000000#32), (2, 0x00000001#32)] [] 0x80830042#32))
    (fun t => t.reg 3 == 0xFFFFFFFF#32 && t.pc == 0x104#32) = true := by decide

/-- V35: `SUB %A1, 0x3F, %A2`. -/
theorem test_sub_ri_V35 : runs (step (mk [(1, 0x00000040#32)] [] 0x80C2007F#32))
    (fun t => t.reg 2 == 0x00000001#32 && t.pc == 0x104#32) = true := by decide

/-- V36: `SUB 0b11, %A1, %A2`. -/
theorem test_sub_ir_V36 : runs (step (mk [(1, 0x00000005#32)] [] 0x81020043#32))
    (fun t => t.reg 2 == 0xFFFFFFFE#32 && t.pc == 0x104#32) = true := by decide

/-- V38: `BAND %A1, %A2, %A3`. -/
theorem test_band_rr_V38 : runs (step (mk [(1, 0xF0F0F0F0#32), (2, 0xFF00FF00#32)] [] 0x81430042#32))
    (fun t => t.reg 3 == 0xF000F000#32 && t.pc == 0x104#32) = true := by decide

/-- V39: `BAND %A1, 0x3F, %A2`. -/
theorem test_band_ri_V39 : runs (step (mk [(1, 0xFFFFFFFF#32)] [] 0x8182007F#32))
    (fun t => t.reg 2 == 0x0000003F#32 && t.pc == 0x104#32) = true := by decide

/-- V40: `BAND %A1, 2, %A3`. -/
theorem test_band_ri_V40 : runs (step (mk [(1, 0xFFFFFFFF#32), (2, 0x00000000#32)] [] 0x81830042#32))
    (fun t => t.reg 3 == 0x00000002#32 && t.pc == 0x104#32) = true := by decide

/-- R113: the example values; the form has no word, so its meaning is run. -/
theorem test_bor_rr_example : runs (exec (.borRR 3 1 2) (mk [(1, 0xF0F00000#32), (2, 0x0000F0F0#32)] [] 0#32))
    (fun t => t.reg 3 == 0xF0F0F0F0#32 && t.pc == 0x104#32) = true := by decide

/-- V41: `BOR %A1, 0x3F, %A2`. -/
theorem test_bor_ri_V41 : runs (step (mk [(1, 0xFFFFFF00#32)] [] 0x81C2007F#32))
    (fun t => t.reg 2 == 0xFFFFFF3F#32 && t.pc == 0x104#32) = true := by decide

/-- V42: `BNOT %A1, %A2`. -/
theorem test_bnot_r_V42 : runs (step (mk [(1, 0x00000000#32)] [] 0x82020001#32))
    (fun t => t.reg 2 == 0xFFFFFFFF#32 && t.pc == 0x104#32) = true := by decide

/-- V43: `BNOT 0x3F, %A2`. -/
theorem test_bnot_i_V43 : runs (step (mk [] [] 0x8242003F#32))
    (fun t => t.reg 2 == 0xFFFFFFC0#32 && t.pc == 0x104#32) = true := by decide

/-- V44: `BNOT 0xFFFF, %A2`. -/
theorem test_bnot_i_V44 : runs (step (mk [] [] 0x8242FFFF#32))
    (fun t => t.reg 2 == 0xFFFF0000#32 && t.pc == 0x104#32) = true := by decide

/-- V45: `BXOR %A1, %A1, %A2`. -/
theorem test_bxor_rr_V45 : runs (step (mk [(1, 0x12345678#32)] [] 0x82820041#32))
    (fun t => t.reg 2 == 0x00000000#32 && t.pc == 0x104#32) = true := by decide

/-- V46: `BXOR %A1, 0x3F, %A2`. -/
theorem test_bxor_ri_V46 : runs (step (mk [(1, 0x0000000F#32)] [] 0x82C2007F#32))
    (fun t => t.reg 2 == 0x00000030#32 && t.pc == 0x104#32) = true := by decide

/-- V47: `RAND %A1, %A2`. -/
theorem test_rand_V47 : runs (step (mk [(1, 0xFFFFFFFF#32)] [] 0x83020001#32))
    (fun t => t.reg 2 == 0x00000001#32 && t.pc == 0x104#32) = true := by decide

/-- V48: `RAND %A1, %A2`. -/
theorem test_rand_V48 : runs (step (mk [(1, 0xFFFFFFFE#32)] [] 0x83020001#32))
    (fun t => t.reg 2 == 0x00000000#32 && t.pc == 0x104#32) = true := by decide

/-- V49: `ROR %A1, %A2`. -/
theorem test_ror_V49 : runs (step (mk [(1, 0x80000000#32)] [] 0x83420001#32))
    (fun t => t.reg 2 == 0x00000001#32 && t.pc == 0x104#32) = true := by decide

/-- V50: `ROR %A1, %A2`. -/
theorem test_ror_V50 : runs (step (mk [(1, 0x00000000#32)] [] 0x83420001#32))
    (fun t => t.reg 2 == 0x00000000#32 && t.pc == 0x104#32) = true := by decide

/-- V51: `RXOR %A1, %A2`. -/
theorem test_rxor_V51 : runs (step (mk [(1, 0x00000007#32)] [] 0x83820001#32))
    (fun t => t.reg 2 == 0x00000001#32 && t.pc == 0x104#32) = true := by decide

/-- V52: `RXOR %A1, %A2`. -/
theorem test_rxor_V52 : runs (step (mk [(1, 0x00000003#32)] [] 0x83820001#32))
    (fun t => t.reg 2 == 0x00000000#32 && t.pc == 0x104#32) = true := by decide

/-- V54: `MUL %A1, %A2, %A3`. -/
theorem test_mul_rr_V54 : runs (step (mk [(1, 0x00010000#32), (2, 0x00010000#32)] [] 0x83C30042#32))
    (fun t => t.reg 3 == 0x00000000#32 && t.pc == 0x104#32) = true := by decide

/-- V55: `MUL %A1, %A2, %A3`. -/
theorem test_mul_rr_V55 : runs (step (mk [(1, 0xFFFFFFFF#32), (2, 0xFFFFFFFF#32)] [] 0x83C30042#32))
    (fun t => t.reg 3 == 0x00000001#32 && t.pc == 0x104#32) = true := by decide

/-- V56: `MUL %A1, 0x3F, %A2`. -/
theorem test_mul_ri_V56 : runs (step (mk [(1, 0x00000002#32)] [] 0x8402007F#32))
    (fun t => t.reg 2 == 0x0000007E#32 && t.pc == 0x104#32) = true := by decide

/-- V58: `DIV %A1, %A2, %A3`. -/
theorem test_div_rr_V58 : runs (step (mk [(1, 0xFFFFFFF9#32), (2, 0x00000002#32)] [] 0x84430042#32))
    (fun t => t.reg 3 == 0xFFFFFFFD#32 && t.pc == 0x104#32) = true := by decide

/-- V60: `DIV %A1, %A2, %A3`. -/
theorem test_div_rr_V60 : runs (step (mk [(1, 0x80000000#32), (2, 0xFFFFFFFF#32)] [] 0x84430042#32))
    (fun t => t.reg 3 == 0x80000000#32 && t.pc == 0x104#32) = true := by decide

/-- V63: `DIV %A1, 0x3F, %A2`. -/
theorem test_div_ri_V63 : runs (step (mk [(1, 0x00000064#32)] [] 0x8482007F#32))
    (fun t => t.reg 2 == 0x00000001#32 && t.pc == 0x104#32) = true := by decide

/-- V65: `DIV %A1, 0, %A2`. -/
theorem test_div_ri_V65 : stops (step (mk [(1, 0x00000001#32)] [] 0x84820040#32)) (.divideByZero 0x100) = true := by decide

/-- V64: `DIV 0b11, %A1, %A2`. -/
theorem test_div_ir_V64 : runs (step (mk [(1, 0x00000002#32)] [] 0x84C20043#32))
    (fun t => t.reg 2 == 0x00000001#32 && t.pc == 0x104#32) = true := by decide

/-- V70: `SL %A1, %A2, %A3`. -/
theorem test_sl_rr_V70 : runs (step (mk [(1, 0x00000001#32), (2, 0x0000001F#32)] [] 0x85030042#32))
    (fun t => t.reg 3 == 0x80000000#32 && t.pc == 0x104#32) = true := by decide

/-- V71: `SL %A1, %A2, %A3`. -/
theorem test_sl_rr_V71 : runs (step (mk [(1, 0xFFFFFFFF#32), (2, 0x00000020#32)] [] 0x85030042#32))
    (fun t => t.reg 3 == 0x00000000#32 && t.pc == 0x104#32) = true := by decide

/-- V74: `SL %A1, 0x3F, %A2`. -/
theorem test_sl_ri_V74 : runs (step (mk [(1, 0x00000001#32)] [] 0x8542007F#32))
    (fun t => t.reg 2 == 0x00000000#32 && t.pc == 0x104#32) = true := by decide

/-- V75: `SL 0b11, %A1, %A2`. -/
theorem test_sl_ir_V75 : runs (step (mk [(1, 0x00000004#32)] [] 0x85820043#32))
    (fun t => t.reg 2 == 0x00000030#32 && t.pc == 0x104#32) = true := by decide

/-- V76: `SL 1023, 3, %A1`. -/
theorem test_sl_ii_V76 : runs (step (mk [] [] 0x85C1FFC3#32))
    (fun t => t.reg 1 == 0x00001FF8#32 && t.pc == 0x104#32) = true := by decide

/-- V78: `SL 1, 63, %A1`. -/
theorem test_sl_ii_V78 : runs (step (mk [] [] 0x85C1007F#32))
    (fun t => t.reg 1 == 0x00000000#32 && t.pc == 0x104#32) = true := by decide

/-- V79: `LRS %A1, %A2, %A3`. -/
theorem test_lrs_rr_V79 : runs (step (mk [(1, 0x80000000#32), (2, 0x0000001F#32)] [] 0x86030042#32))
    (fun t => t.reg 3 == 0x00000001#32 && t.pc == 0x104#32) = true := by decide

/-- V80: `LRS %A1, %A2, %A3`. -/
theorem test_lrs_rr_V80 : runs (step (mk [(1, 0x80000000#32), (2, 0x00000020#32)] [] 0x86030042#32))
    (fun t => t.reg 3 == 0x00000000#32 && t.pc == 0x104#32) = true := by decide

/-- V81: `LRS %A1, 8, %A2`. -/
theorem test_lrs_ri_V81 : runs (step (mk [(1, 0xFF000000#32)] [] 0x86420048#32))
    (fun t => t.reg 2 == 0x00FF0000#32 && t.pc == 0x104#32) = true := by decide

/-- V82: `LRS 0b11, %A1, %A2`. -/
theorem test_lrs_ir_V82 : runs (step (mk [(1, 0x00000001#32)] [] 0x86820043#32))
    (fun t => t.reg 2 == 0x00000001#32 && t.pc == 0x104#32) = true := by decide

/-- V83: `LRS 1023, 3, %A1`. -/
theorem test_lrs_ii_V83 : runs (step (mk [] [] 0x86C1FFC3#32))
    (fun t => t.reg 1 == 0x0000007F#32 && t.pc == 0x104#32) = true := by decide

/-- V85: `ARS %A1, %A2, %A3`. -/
theorem test_ars_rr_V85 : runs (step (mk [(1, 0x80000000#32), (2, 0x00000064#32)] [] 0x87030042#32))
    (fun t => t.reg 3 == 0xFFFFFFFF#32 && t.pc == 0x104#32) = true := by decide

/-- V86: `ARS %A1, %A2, %A3`. -/
theorem test_ars_rr_V86 : runs (step (mk [(1, 0x7FFFFFFF#32), (2, 0x00000028#32)] [] 0x87030042#32))
    (fun t => t.reg 3 == 0x00000000#32 && t.pc == 0x104#32) = true := by decide

/-- V87: `ARS %A1, 8, %A2`. -/
theorem test_ars_ri_V87 : runs (step (mk [(1, 0xFF000000#32)] [] 0x87420048#32))
    (fun t => t.reg 2 == 0xFFFF0000#32 && t.pc == 0x104#32) = true := by decide

/-- V88: `ARS 0b11, %A1, %A2`. -/
theorem test_ars_ir_V88 : runs (step (mk [(1, 0x00000001#32)] [] 0x87820043#32))
    (fun t => t.reg 2 == 0x00000001#32 && t.pc == 0x104#32) = true := by decide

/-- V89: `ARS 1023, 3, %A1`. -/
theorem test_ars_ii_V89 : runs (step (mk [] [] 0x87C1FFC3#32))
    (fun t => t.reg 1 == 0x0000007F#32 && t.pc == 0x104#32) = true := by decide

/-- V90: `LCS %A1, %A2, %A3`. -/
theorem test_lcs_rr_V90 : runs (step (mk [(1, 0x80000001#32), (2, 0x00000001#32)] [] 0x88030042#32))
    (fun t => t.reg 3 == 0x00000003#32 && t.pc == 0x104#32) = true := by decide

/-- V92: `LCS %A1, %A2, %A3`. -/
theorem test_lcs_rr_V92 : runs (step (mk [(1, 0x12345678#32), (2, 0x00000024#32)] [] 0x88030042#32))
    (fun t => t.reg 3 == 0x23456781#32 && t.pc == 0x104#32) = true := by decide

/-- V93: `LCS %A1, 0x3F, %A2`. -/
theorem test_lcs_ri_V93 : runs (step (mk [(1, 0x80000001#32)] [] 0x8842007F#32))
    (fun t => t.reg 2 == 0xC0000000#32 && t.pc == 0x104#32) = true := by decide

/-- R156: `LCS 0b11, %A1, %A2` with %A1 = 31. -/
theorem test_lcs_ir_example : runs (step (mk [(1, 31#32)] [] 0x88820043#32))
    (fun t => t.reg 2 == 0x80000001#32 && t.pc == 0x104#32) = true := by decide

/-- V94: `LCS 3, 31, %A1`. -/
theorem test_lcs_ii_V94 : runs (step (mk [] [] 0x88C100DF#32))
    (fun t => t.reg 1 == 0x80000001#32 && t.pc == 0x104#32) = true := by decide

/-- V102: `GT %A1, %A2, %A3`. -/
theorem test_gt_rr_V102 : runs (step (mk [(1, 0x00000001#32), (2, 0xFFFFFFFF#32)] [] 0x90030042#32))
    (fun t => t.reg 3 == 0x00000001#32 && t.pc == 0x104#32) = true := by decide

/-- V114: `GT %A1, %A1, %A1`. -/
theorem test_gt_rr_V114 : runs (step (mk [(1, 0x00000055#32)] [] 0x90010041#32))
    (fun t => t.reg 1 == 0x00000000#32 && t.pc == 0x104#32) = true := by decide

/-- V103: `GT %A1, 0x3F, %A2`. -/
theorem test_gt_ri_V103 : runs (step (mk [(1, 0xFFFFFFFF#32)] [] 0x9042007F#32))
    (fun t => t.reg 2 == 0x00000000#32 && t.pc == 0x104#32) = true := by decide

/-- V104: `EQ %A1, %A2, %A3`. -/
theorem test_eq_rr_V104 : runs (step (mk [(1, 0x80000000#32), (2, 0x80000000#32)] [] 0x90830042#32))
    (fun t => t.reg 3 == 0x00000001#32 && t.pc == 0x104#32) = true := by decide

/-- V106: `EQ %A1, %ZERO, %A2`. -/
theorem test_eq_rr_V106 : runs (step (mk [(1, 0x00000000#32)] [] 0x90820040#32))
    (fun t => t.reg 2 == 0x00000001#32 && t.pc == 0x104#32) = true := by decide

/-- V105: `EQ %A1, 0x3F, %A2`. -/
theorem test_eq_ri_V105 : runs (step (mk [(1, 0x0000003F#32)] [] 0x90C2007F#32))
    (fun t => t.reg 2 == 0x00000001#32 && t.pc == 0x104#32) = true := by decide

/-- V107: `LT %A1, %A2, %A3`. -/
theorem test_lt_rr_V107 : runs (step (mk [(1, 0x80000000#32), (2, 0x7FFFFFFF#32)] [] 0x91030042#32))
    (fun t => t.reg 3 == 0x00000001#32 && t.pc == 0x104#32) = true := by decide

/-- V108: `LT %A1, 0, %A2`. -/
theorem test_lt_ri_V108 : runs (step (mk [(1, 0xFFFFFFFF#32)] [] 0x91420040#32))
    (fun t => t.reg 2 == 0x00000001#32 && t.pc == 0x104#32) = true := by decide

/-- V109: `LT %A1, 0x3F, %A2`. -/
theorem test_lt_ri_V109 : runs (step (mk [(1, 0x0000003F#32)] [] 0x9142007F#32))
    (fun t => t.reg 2 == 0x00000000#32 && t.pc == 0x104#32) = true := by decide

/-- V110: `GTE %A1, %A2, %A3`. -/
theorem test_gte_rr_V110 : runs (step (mk [(1, 0x00000009#32), (2, 0x00000009#32)] [] 0x91830042#32))
    (fun t => t.reg 3 == 0x00000001#32 && t.pc == 0x104#32) = true := by decide

/-- V111: `GTE %A1, 0x3F, %A2`. -/
theorem test_gte_ri_V111 : runs (step (mk [(1, 0x0000003E#32)] [] 0x91C2007F#32))
    (fun t => t.reg 2 == 0x00000000#32 && t.pc == 0x104#32) = true := by decide

/-- V112: `LTE %A1, %A2, %A3`. -/
theorem test_lte_rr_V112 : runs (step (mk [(1, 0x0000000A#32), (2, 0x00000009#32)] [] 0x92030042#32))
    (fun t => t.reg 3 == 0x00000000#32 && t.pc == 0x104#32) = true := by decide

/-- V113: `LTE %A1, 0x3F, %A2`. -/
theorem test_lte_ri_V113 : runs (step (mk [(1, 0x0000003F#32)] [] 0x9242007F#32))
    (fun t => t.reg 2 == 0x00000001#32 && t.pc == 0x104#32) = true := by decide

/-- V121: `JMP [223]`. -/
theorem test_jmp_imm_V121 : runs (step (mk [] [] 0xC00000DF#32))
    (fun t => t.pc == 0xDF#32) = true := by decide

/-- V122: `JMP [0x3FFFFC]`. -/
theorem test_jmp_imm_V122 : runs (step (mk [] [] 0xC03FFFFC#32))
    (fun t => t.pc == 0x3FFFFC#32) = true := by decide

/-- V123: `JMP [%PC + %A2]`. -/
theorem test_jmp_reg_V123 : runs (step (mk [(2, 0x00000020#32)] [] 0xC0400A42#32))
    (fun t => t.pc == 0x120#32) = true := by decide

/-- V124: `JMP [%PC + %A2]`. -/
theorem test_jmp_reg_V124 : runs (step (mk [(2, 0xFFFFFFF0#32)] [] 0xC0400A42#32))
    (fun t => t.pc == 0xF0#32) = true := by decide

/-- V127: `OJMP %A1, [224]`. -/
theorem test_ojmp_imm_V127 : runs (step (mk [(1, 0x00000001#32)] [] 0xC08100E0#32))
    (fun t => t.pc == 0xE0#32) = true := by decide

/-- V129: `OJMP %A1, [224]`. -/
theorem test_ojmp_imm_V129 : runs (step (mk [(1, 0x00000002#32)] [] 0xC08100E0#32))
    (fun t => t.pc == 0x104#32) = true := by decide

/-- V130: `OJMP %A1, [%PC + %A2]`. -/
theorem test_ojmp_reg_V130 : runs (step (mk [(1, 0x00000001#32), (2, 0x00000020#32)] [] 0xC0C10A42#32))
    (fun t => t.pc == 0x120#32) = true := by decide

/-- V131: `OJMP %ZERO, [%PC + %A2]`. -/
theorem test_ojmp_reg_V131 : runs (step (mk [(2, 0x00000020#32)] [] 0xC0C00A42#32))
    (fun t => t.pc == 0x104#32) = true := by decide

/-- V132: `ZJMP %A1, [224]`. -/
theorem test_zjmp_imm_V132 : runs (step (mk [(1, 0x00000000#32)] [] 0xC10100E0#32))
    (fun t => t.pc == 0xE0#32) = true := by decide

/-- V134: `ZJMP %A1, [224]`. -/
theorem test_zjmp_imm_V134 : runs (step (mk [(1, 0xFFFFFFFF#32)] [] 0xC10100E0#32))
    (fun t => t.pc == 0x104#32) = true := by decide

/-- V135: `ZJMP %A1, [%PC + %A2]`. -/
theorem test_zjmp_reg_V135 : runs (step (mk [(1, 0x00000000#32), (2, 0x00000020#32)] [] 0xC1410A42#32))
    (fun t => t.pc == 0x120#32) = true := by decide

/-- V136: `ZJMP %ZERO, [%PC + %A2]`. -/
theorem test_zjmp_reg_V136 : runs (step (mk [(2, 0x00000020#32)] [] 0xC1400A42#32))
    (fun t => t.pc == 0x120#32) = true := by decide

/-! ## The fetch -/

theorem test_fetch_misaligned : stops (step ((mk [] [] 0#32).setPc 0xDF#32)) (.misalignedFetch 0xDF#32) = true := by decide
theorem test_fetch_unbacked : stops (step ((mk [] [] 0#32).setPc 0x104#32)) (.fetchAccess 0x104#32) = true := by decide
theorem test_reset_first_step : stops (step State.reset) (.illegalInstruction 0#32 0#32) = true := by decide
theorem test_reset_fetch_word : runs (step (State.reset.withFetchWord 32 0x80450A48))
    (fun t => t.reg 5 == 8#32 && t.pc == 4#32) = true := by decide

/-! ## Assembler (E1, E7, E22, E42, R73) -/

theorem test_assemble_load8 : assembleWord [] ⟨.load8, [.num 8, .reg 1]⟩ = some 0x00410008#32 := by decide
theorem test_assemble_load32 : assembleWord [] ⟨.load32, [.memReg 41 (some 1), .reg 1]⟩ = some 0x01410A41#32 := by decide
theorem test_assemble_sub : assembleWord [] ⟨.sub, [.num 3, .reg 1, .reg 2]⟩ = some 0x81020043#32 := by decide
theorem test_assemble_wide : assembleWord [] ⟨.sl, [.num 1024, .num 3, .reg 1]⟩ = none := by decide
theorem test_assemble_symbol : assembleWord [("LABEL", 224)] ⟨.jmp, [.symbol "LABEL"]⟩ = some 0xC00000E0#32 := by decide

/-- A name in OJMP is the model's own choice (log 25); the word is E69's with `%A1` and 224. -/
theorem test_assemble_symbol_ojmp :
    assembleLine [("LABEL", 224)] "OJMP %A1, LABEL" = some 0xC08100E0#32 := by decide

/-! ## Witnesses: a state and operands that meet the hypotheses of each statement -/

theorem witness_AddAndSubtractImmediateForms : Target 1 ∧ Target 40 := by decide
theorem witness_SubtractAndMultiplyForms : Target 1 ∧ Target 40 := by decide
theorem witness_AndXorOfRegistersBitwise : Target 1 ∧ Target 40 := by decide
theorem witness_OrXorWithImmediateBitwise : Target 1 ∧ Target 40 := by decide
theorem witness_AndWithImmediateKeepsLowBits : Target 1 ∧ Target 40 := by decide
theorem witness_NotOfRegisterInvertsEveryBit : Target 1 ∧ Target 40 := by decide
theorem witness_NotOfImmediateSetsHighHalf : Target 1 ∧ Target 40 := by decide
theorem witness_ReductionsToOneBit : (Target 1 ∧ NotZero 1) ∧ (Target 40 ∧ NotZero 41) := by decide
theorem witness_OrOfRegistersWithoutDefaultWord : Target 1 ∧ Target 40 := by decide
theorem witness_ShiftLeftMultiplies : Target 1 ∧ Target 40 := by decide
theorem witness_LogicalShiftRightDivides : Target 1 ∧ Target 40 := by decide
theorem witness_ArithmeticShiftRightFloors : Target 1 ∧ Target 40 := by decide
theorem witness_CircularShiftRotatesBits : Target 1 ∧ Target 40 := by decide
theorem witness_OrderComparesOfRegisters : Target 1 ∧ Target 40 := by decide
theorem witness_OrderComparesWithImmediate : Target 1 ∧ Target 40 := by decide
theorem witness_EqualityCompares : Target 1 ∧ Target 40 := by decide
theorem witness_CompareRelationsConsistent : Target 1 ∧ Target 40 := by decide
theorem witness_ImmediateLoads : Target 1 ∧ Target 40 := by decide
theorem witness_MoveCopiesRegister : Target 1 ∧ Target 40 := by decide
theorem witness_MoveOntoItselfOnlyAdvances : Target 1 ∧ Target 40 := by decide
theorem witness_UnconditionalJumps : (NotZero 1 ∧ NotPc 40) ∧ (NotZero 41 ∧ NotPc 0) := by decide
theorem witness_JumpsWhenOne : (NotZero 1 ∧ NotPc 40) ∧ (NotZero 41 ∧ NotPc 0) := by decide
theorem witness_JumpsWhenZero : (NotZero 1 ∧ NotPc 40) ∧ (NotZero 41 ∧ NotPc 0) := by decide
theorem witness_DivideTruncatesTowardZero :
    let s := mk [(1, 0x80000000#32), (2, 0xFFFFFFFF#32)] [] 0#32
    Target 3 ∧ (s.reg 2).toNat ≠ 0 ∧ (1#10).toNat ≠ 0 ∧ (s.reg 1).toNat ≠ 0 := by decide
theorem witness_DivideByZeroStops :
    let s := mk [(1, 7#32)] [] 0#32
    (s.reg 2).toNat = 0 ∧ (s.reg Label.zero).toNat = 0 := by decide
theorem witness_DivideSettingsAgreeBelowSignBit :
    (0x7FFFFFFF#32).toNat < 2147483648 ∧ (1#32).toNat < 2147483648 ∧ (1#32).toNat ≠ 0 ∧
    { settings with div0 := .any }.div0 = .any := by decide
theorem witness_ShiftSettingsAgreeBelowWidth : (31#32).toNat < 32 := by decide
theorem witness_RegisterReadAfterWrite : Target 40 ∧ (3 : Label) ≠ 4 ∧ ¬ Target 0 ∧ ¬ Target 41 := by decide

/-- `%A1` at the last accessible word, halfword and byte, one past them, and between. -/
def at32 (a : Word) : State := mk [(1, a)] [] 0#32

theorem witness_LoadsFromMemory : Target 2 ∧
    Accessible (at32 0x100F#32) (effectiveAddress (at32 0x100F#32) 1 0) 1 ∧
    Accessible (at32 0x100E#32) (effectiveAddress (at32 0x100E#32) 1 0) 2 ∧
    Accessible (at32 0x100C#32) (effectiveAddress (at32 0x100C#32) 1 0) 4 := by unfold Accessible; decide
theorem witness_LoadsFromMemory_misaligned :
    (effectiveAddress (at32 0x100D#32) 1 0).toNat % 2 ≠ 0 ∧ (effectiveAddress (at32 0x100E#32) 1 0).toNat % 4 ≠ 0 := by decide
theorem witness_LoadsFromMemory_unbacked :
    (effectiveAddress (at32 0x1010#32) 1 0).toNat % 4 = 0 ∧
    ∃ k < 4, (at32 0x1010#32).mem.backed ((effectiveAddress (at32 0x1010#32) 1 0).toNat + k) = false := by decide
theorem witness_StoresToMemory : (at32 0x100C#32).Inv ∧
    Accessible (at32 0x100F#32) (effectiveAddress (at32 0x100F#32) 1 0) 1 ∧
    Accessible (at32 0x100E#32) (effectiveAddress (at32 0x100E#32) 1 0) 2 ∧
    Accessible (at32 0x100C#32) (effectiveAddress (at32 0x100C#32) 1 0) 4 := by unfold Accessible; decide
theorem witness_OnlyJumpsAssignPc : (isJump (.move 2 1) = false ∧ ∃ t, exec (.move 2 1) (mk [] [] 0#32) = .next t) ∧
    decode 0x02420001#32 = .ok (.move 2 1) := ⟨⟨rfl, _, rfl⟩, by decide⟩
theorem witness_FrameOfEveryInstruction : (∃ t, exec (.store8 1 1 0) (at32 0x1000#32) = .next t) ∧
    accessOf (.store8 1 1 0) = some (1, 0, 1) ∧
    ∀ k < 1, 0x1001 ≠ (effectiveAddress (at32 0x1000#32) 1 0).toNat + k := ⟨⟨_, rfl⟩, by decide, by decide⟩
theorem witness_StepRunsDecodedInstruction : Fetches (mk [] [] 0x02420001#32) 0x02420001#32 ∧
    decode 0x02420001#32 = .ok (.move 2 1) := by unfold Fetches; decide
theorem witness_FetchStopsOnBadPc :
    let s := mk [] [] 0#32
    (s.setPc 0x102#32).pc.toNat % 4 ≠ 0 ∧ (s.setPc 0x104#32).pc.toNat % 4 = 0 ∧
    (s.setPc 0x104#32).mem.backed ((s.setPc 0x104#32).pc.toNat + 0) = false := by decide
theorem witness_UndecodedWordsStop : Fetches (mk [] [] 0#32) 0#32 ∧ decode 0#32 = .error .unassignedOpcode := by
  unfold Fetches; decide
theorem witness_StepNeverRefused : (∃ f, exec (.divRR 3 1 2) (mk [] [] 0#32) = .fault f) ∧
    ∃ f, step (mk [] [] 0#32) = .fault f := ⟨⟨_, rfl⟩, _, rfl⟩
theorem witness_StepNeverRefused_access :
    (effectiveAddress (at32 0x100D#32) 1 0).toNat % 2 ≠ 0 ∧ (effectiveAddress (at32 0x1010#32) 1 0).toNat % 4 = 0 ∧
    ∃ k < 4, (at32 0x1010#32).mem.backed ((effectiveAddress (at32 0x1010#32) 1 0).toNat + k) = false := by decide
theorem witness_PlacedWordRunsNext : State.reset.Inv ∧ State.reset.pc.toNat % 4 = 0 ∧
    decode (BitVec.ofNat 32 (0x02420001 % 2 ^ 32)) = .ok (.move 2 1) := by decide
theorem witness_DecodeOfEncodedInstruction : (Instr.addRI 1 41 1023#10).wf = true ∧
    encode (.addRI 1 41 1023#10) = some 0x8041FA7F#32 := by decide
theorem witness_EncodeOfDecodedWord : decode 0x8041FA7F#32 = .ok (.addRI 1 41 1023#10) := by decide
theorem witness_LenientDecodeExtendsStrict : decode 0x80030042#32 = .ok (.addRR 3 1 2) ∧
    decodeWith { settings with strictDecode := false } 0x8003F042#32 = .ok (.addRR 3 1 2) ∧
    targetOf (.addRR 3 1 2) = some 3 := by decide
theorem witness_RefusingSettingsDecline : opcodeNumber 0x81800000#32 = 0x206 ∧ opcodeNumber 0xC0800000#32 = 0x302 ∧
    opcodeNumber 0xC1400000#32 = 0x305 := by decide
theorem witness_BytesDecodeAsWord : ([1#8, 2#8, 3#8] : List Byte).length < 4 := by decide
theorem witness_CanonicalMemoryKeptByStep : (mk [(1, 0x1008#32)] [] 0x02010040#32).Inv ∧
    ∃ t, step (mk [(1, 0x1008#32)] [] 0x02010040#32) = .next t := ⟨by decide, _, rfl⟩
theorem witness_MixedWidthReads : (mk [] [] 0#32).mem.wf = true := by decide
theorem witness_LoadAfterStoreReadsValue : (at32 0x1000#32).Inv ∧ Target 3 ∧ NotPc 1 ∧ NotPc 0 ∧
    (∃ t, exec (.store8 2 1 0) (at32 0x1000#32) = .next t) ∧ (∃ t, exec (.store16 2 1 0) (at32 0x1000#32) = .next t) ∧
    ∃ t, exec (.store32 2 1 0) (at32 0x1000#32) = .next t :=
  ⟨by decide, by decide, by decide, by decide, ⟨_, rfl⟩, ⟨_, rfl⟩, ⟨_, rfl⟩⟩
theorem witness_StoredWordIsFetched : (at32 0x100C#32).Inv ∧ ∃ t, exec (.store32 2 1 0) (at32 0x100C#32) = .next t :=
  ⟨by decide, _, rfl⟩

/-- CODE_WRITES = refuse with the four bytes at 0x1004 as program text. -/
def textSettings : Settings := { settings with codeWrites := .refuse [⟨0x1004, 4⟩] }

theorem witness_StoreSettings : textSettings.codeWrites = .refuse [⟨0x1004, 4⟩] ∧
    dataFault textSettings (at32 0#32) 0x1004#32 4 = none ∧
    (∃ k < 4, ∃ r ∈ [(⟨0x1004, 4⟩ : Region)], r.holds (0x1004#32 + BitVec.ofNat 32 k).toNat = true) ∧
    dataFault textSettings (at32 0#32) 0x1008#32 4 = none ∧
    (∀ k < 4, ∀ r ∈ [(⟨0x1004, 4⟩ : Region)], r.holds (0x1008#32 + BitVec.ofNat 32 k).toNat = false) ∧
    { settings with misalignedData := .split }.misalignedData = .split := by decide
theorem witness_HaltingIdiomsAreFinal : Fetches (mk [] [] 0xC0400A40#32) 0xC0400A40#32 ∧
    ((0x100#22).toNat = (mk [] [] 0xC0000100#32).pc.toNat ∧
      Fetches (mk [] [] 0xC0000100#32) (wordJ 0x300 0x100#22)) ∧
    (0x100#16).toNat = (mk [] [] 0xC1000100#32).pc.toNat ∧
      Fetches (mk [] [] 0xC1000100#32) (wordImm 0x304 Label.zero 0x100#16) := by unfold Fetches; decide
theorem witness_CompletedStepMovesPc : (∃ t, step (mk [] [] 0x02420001#32) = .next t) ∧
    takenTarget (mk [] [] 0x02420001#32) (.move 2 1) = none ∧ ¬ (mk [] [] 0x02420001#32).Final :=
  ⟨⟨_, rfl⟩, rfl, fun h => absurd (congrArg State.pc (Host.Outcome.next.inj h)) (by decide)⟩
theorem witness_StatementsAssemble : (Instr.load32Mem 1 41 0).wf = true := by decide
theorem witness_WideImmediatesRejected : (1024 ≤ 1024 ∧ 64 ≤ 64 ∧ 256 ≤ 256 ∧ 65536 ≤ 65536 ∧ 4194304 ≤ 4194304) ∧
    [("END", 65536)].lookup "END" = some 65536 ∧ [("END", 4194304)].lookup "END" = some 4194304 := by decide
theorem witness_ResetState : Target 1 ∧ Target 40 := by decide

end Sys2Proof.Machine
end

section
/-! ## The decoder against the encoder: a word decodes to an instruction exactly when it is the word of that
well-formed instruction (spec/30_encoding.md R62 to R69) -/
namespace Sys2Proof

/-- Whatever `d` reads is a well-formed instruction whose word is `w`. -/
def ReadsBack (w : Word) (d : Except DecodeReject Instr) : Prop :=
  ∀ i, d = .ok i → i.wf = true ∧ encode i = some w

section Formats
variable {w : Word} {op : BitVec 10}

theorem readsBack_three {rA rB rC : LabelRange} {mk : Label → Label → Label → Instr} (hop : opField w = op)
    (hwf : ∀ ra rb rc, (mk ra rb rc).wf = (rA.contains ra && rB.contains rb && rC.contains rc))
    (henc : ∀ ra rb rc, encode (mk ra rb rc) = some (layThree op ra rb rc)) :
    ReadsBack w (decodeThree settings w rA rB rC mk) := by
  intro i h
  obtain ⟨ra, rb, rc, rfl, ha, hb, hc, hw⟩ := decodeThree_ok.1 h
  rw [hwf, henc, ha, hb, hc, ← hop, ← hw]
  exact ⟨rfl, rfl⟩

theorem readsBack_reg3 {mk : Label → Label → Label → Instr} (hop : opField w = op)
    (hwf : ∀ ra rb rc, (mk ra rb rc).wf = LabelRange.target.contains ra)
    (henc : ∀ ra rb rc, encode (mk ra rb rc) = some (layThree op ra rb rc)) :
    ReadsBack w (decodeREG3 settings w mk) :=
  readsBack_three hop (fun ra rb rc => by simp [hwf, LabelRange.contains]) henc

theorem readsBack_cjr {mk : Label → Label → Label → Instr} (hop : opField w = op)
    (hwf : ∀ ra rb rc, (mk ra rb rc).wf = (LabelRange.notZero.contains rb && LabelRange.notPc.contains rc))
    (henc : ∀ ra rb rc, encode (mk ra rb rc) = some (layThree op ra rb rc)) :
    ReadsBack w (decodeCJR settings w mk) :=
  readsBack_three hop (fun ra rb rc => by simp [hwf, LabelRange.contains]) henc

theorem readsBack_reg2 {rC : LabelRange} {mk : Label → Label → Instr} (hop : opField w = op)
    (hwf : ∀ ra rc, (mk ra rc).wf = (LabelRange.target.contains ra && rC.contains rc))
    (henc : ∀ ra rc, encode (mk ra rc) = some (layREG2 op ra rc)) :
    ReadsBack w (decodeREG2 settings w rC mk) := by
  intro i h
  obtain ⟨ra, rc, rfl, ha, hc, hw⟩ := decodeREG2_ok.1 h
  rw [hwf, henc, ha, hc, ← hop, ← hw]
  exact ⟨rfl, rfl⟩

theorem readsBack_i8 {mk : Label → BitVec 8 → Instr} (hop : opField w = op)
    (hwf : ∀ ra v, (mk ra v).wf = LabelRange.target.contains ra)
    (henc : ∀ ra v, encode (mk ra v) = some (layI8 op ra v)) : ReadsBack w (decodeI8 settings w mk) := by
  intro i h
  obtain ⟨ra, v, rfl, ha, hw⟩ := decodeI8_ok.1 h
  rw [hwf, henc, ha, ← hop, ← hw]
  exact ⟨rfl, rfl⟩

theorem readsBack_i16 {mk : Label → BitVec 16 → Instr} (hop : opField w = op)
    (hwf : ∀ ra v, (mk ra v).wf = LabelRange.target.contains ra)
    (henc : ∀ ra v, encode (mk ra v) = some (layI16 op ra v)) : ReadsBack w (decodeI16 settings w mk) := by
  intro i h
  obtain ⟨ra, v, rfl, ha, hw⟩ := decodeI16_ok.1 h
  rw [hwf, henc, ha, ← hop, ← hw]
  exact ⟨rfl, rfl⟩

theorem readsBack_cj {mk : Label → BitVec 16 → Instr} (hop : opField w = op)
    (hwf : ∀ ra v, (mk ra v).wf = true)
    (henc : ∀ ra v, encode (mk ra v) = some (layI16 op ra v)) : ReadsBack w (decodeCJ settings w mk) := by
  intro i h
  obtain ⟨ra, v, rfl, hw⟩ := decodeCJ_ok.1 h
  rw [hwf, henc, ← hop, ← hw]
  exact ⟨rfl, rfl⟩

theorem readsBack_ri {mk : Label → Label → BitVec 10 → Instr} (hop : opField w = op)
    (hwf : ∀ ra rb v, (mk ra rb v).wf = LabelRange.target.contains ra)
    (henc : ∀ ra rb v, encode (mk ra rb v) = some (layRI op ra rb v)) :
    ReadsBack w (decodeRI settings w mk) := by
  intro i h
  obtain ⟨ra, rb, v, rfl, ha, hw⟩ := decodeRI_ok.1 h
  rw [hwf, henc, ha, ← hop, ← hw]
  exact ⟨rfl, rfl⟩

theorem readsBack_ii {mk : Label → BitVec 10 → BitVec 6 → Instr} (hop : opField w = op)
    (hwf : ∀ ra v u, (mk ra v u).wf = LabelRange.target.contains ra)
    (henc : ∀ ra v u, encode (mk ra v u) = some (layII op ra v u)) :
    ReadsBack w (decodeII settings w mk) := by
  intro i h
  obtain ⟨ra, v, u, rfl, ha, hw⟩ := decodeII_ok.1 h
  rw [hwf, henc, ha, ← hop, ← hw]
  exact ⟨rfl, rfl⟩

theorem readsBack_jr {mk : Label → Label → Instr} (hop : opField w = op)
    (hwf : ∀ rb rc, (mk rb rc).wf = (LabelRange.notZero.contains rb && LabelRange.notPc.contains rc))
    (henc : ∀ rb rc, encode (mk rb rc) = some (layJR op rb rc)) : ReadsBack w (decodeJR settings w mk) := by
  intro i h
  obtain ⟨rb, rc, rfl, hb, hc, hw⟩ := decodeJR_ok.1 h
  rw [hwf, henc, hb, hc, ← hop, ← hw]
  exact ⟨rfl, rfl⟩

theorem readsBack_jmpImm (hop : opField w = 0x300#10) : ReadsBack w (.ok (.jmpImm (imm22Field w))) := by
  rintro i ⟨⟩
  refine ⟨rfl, congrArg some ?_⟩
  conv_rhs => rw [word_eq_j w, hop]
  rfl

theorem readsBack_error {r : DecodeReject} : ReadsBack w (.error r) := nofun

end Formats

/-- Row by row of R64: case `h_n` is the `n`-th row of `decodeOp`, and rows of one format have one proof, in the
order I8, M (loads, then stores), I16, REG2 (any source, then not %ZERO), REG3, RI, II, J, JR, CJ, CJR. -/
theorem readsBack_decodeOp {w : Word} {op : Nat} (hop : opField w = BitVec.ofNat 10 op) :
    ReadsBack w (decodeOp settings w op) := by
  unfold decodeOp
  split
  case h_1 => exact readsBack_i8 hop (fun _ _ => rfl) (fun _ _ => rfl)
  case h_2 | h_4 | h_5 => exact readsBack_three hop (fun _ _ _ => rfl) (fun _ _ _ => rfl)
  case h_6 | h_7 | h_8 => exact readsBack_three hop (fun _ _ _ => rfl) (fun _ _ _ => rfl)
  case h_3 | h_19 => exact readsBack_i16 hop (fun _ _ => rfl) (fun _ _ => rfl)
  case h_9 | h_18 => exact readsBack_reg2 hop (fun _ _ => (Bool.and_true _).symm) (fun _ _ => rfl)
  case h_22 | h_23 | h_24 => exact readsBack_reg2 hop (fun _ _ => rfl) (fun _ _ => rfl)
  case h_10 | h_12 | h_15 | h_20 | h_25 | h_27 | h_30 | h_34 | h_38 | h_42 | h_46 | h_48 | h_50 | h_52 | h_54 =>
    exact readsBack_reg3 hop (fun _ _ _ => rfl) (fun _ _ _ => rfl)
  case h_11 | h_13 | h_14 | h_16 | h_17 | h_21 | h_26 | h_28 | h_29 | h_31 | h_32 | h_35 | h_36 | h_39 | h_40 | h_43
      | h_44 | h_47 | h_49 | h_51 | h_53 | h_55 =>
    exact readsBack_ri hop (fun _ _ _ => rfl) (fun _ _ _ => rfl)
  case h_33 | h_37 | h_41 | h_45 => exact readsBack_ii hop (fun _ _ _ => rfl) (fun _ _ _ => rfl)
  case h_56 => exact readsBack_jmpImm hop
  case h_57 => exact readsBack_jr hop (fun _ _ => rfl) (fun _ _ => rfl)
  case h_58 | h_60 => exact readsBack_cj hop (fun _ _ => rfl) (fun _ _ => rfl)
  case h_59 | h_61 => exact readsBack_cjr hop (fun _ _ _ => rfl) (fun _ _ _ => rfl)
  case h_62 => exact readsBack_error

theorem wf_and_encode_of_decode {w : Word} {i : Instr} (h : decode w = .ok i) : i.wf = true ∧ encode i = some w :=
  readsBack_decodeOp (BitVec.eq_of_toNat_eq (by simp)) i h

theorem encode_eq_some_iff {i : Instr} {w : Word} :
    encode i = some w ↔ hasEncoding settings i = true ∧ layout i = w := by
  simp [encode, encodeWith]

/-- BOR_RR alone has no word under the settings in force (D13). -/
theorem decode_layout {i : Instr} (hwf : i.wf = true) (henc : hasEncoding settings i = true) :
    decode (layout i) = .ok i := by
  have hop : opField (layout i) = i.opcode := Laws.OpcodeField.opField_layout i
  rw [decode, decodeWith, hop]
  cases i with
  | load8Imm ra v => exact decodeI8_ok.2 ⟨ra, v, rfl, hwf, congrArg (layI8 · ra v) hop.symm⟩
  | load16Imm ra v | bnotI ra v => exact decodeI16_ok.2 ⟨ra, v, rfl, hwf, congrArg (layI16 · ra v) hop.symm⟩
  | load8Mem ra rb rc | load16Mem ra rb rc | load32Mem ra rb rc | store8 ra rb rc | store16 ra rb rc
  | store32 ra rb rc =>
    simp only [Instr.wf, Bool.and_eq_true] at hwf
    obtain ⟨⟨ha, hb⟩, hc⟩ := hwf
    exact decodeThree_ok.2 ⟨ra, rb, rc, rfl, ha, hb, hc, congrArg (layThree · ra rb rc) hop.symm⟩
  | move ra rc | bnotR ra rc =>
    exact decodeREG2_ok.2 ⟨ra, rc, rfl, hwf, rfl, congrArg (layREG2 · ra rc) hop.symm⟩
  | rand ra rc | ror ra rc | rxor ra rc =>
    obtain ⟨ha, hc⟩ := Bool.and_eq_true_iff.1 hwf
    exact decodeREG2_ok.2 ⟨ra, rc, rfl, ha, hc, congrArg (layREG2 · ra rc) hop.symm⟩
  | addRR ra rb rc | subRR ra rb rc | bandRR ra rb rc | bxorRR ra rb rc | mulRR ra rb rc | divRR ra rb rc
  | slRR ra rb rc | lrsRR ra rb rc | arsRR ra rb rc | lcsRR ra rb rc | gtRR ra rb rc | eqRR ra rb rc
  | ltRR ra rb rc | gteRR ra rb rc | lteRR ra rb rc =>
    exact decodeThree_ok.2 ⟨ra, rb, rc, rfl, hwf, rfl, rfl, congrArg (layThree · ra rb rc) hop.symm⟩
  | borRR ra rb rc => cases henc
  | addRI ra rb v | subRI ra rb v | subIR ra rb v | bandRI ra rb v | borRI ra rb v | bxorRI ra rb v | mulRI ra rb v
  | divRI ra rb v | divIR ra rb v | slRI ra rb v | slIR ra rb v | lrsRI ra rb v | lrsIR ra rb v | arsRI ra rb v
  | arsIR ra rb v | lcsRI ra rb v | lcsIR ra rb v | gtRI ra rb v | eqRI ra rb v | ltRI ra rb v | gteRI ra rb v
  | lteRI ra rb v => exact decodeRI_ok.2 ⟨ra, rb, v, rfl, hwf, congrArg (layRI · ra rb v) hop.symm⟩
  | slII ra v u | lrsII ra v u | arsII ra v u | lcsII ra v u =>
    exact decodeII_ok.2 ⟨ra, v, u, rfl, hwf, congrArg (layII · ra v u) hop.symm⟩
  | jmpImm v => exact congrArg (fun u => Except.ok (Instr.jmpImm u)) (imm22Field_layJ _ v)
  | jmpReg rb rc =>
    obtain ⟨hb, hc⟩ := Bool.and_eq_true_iff.1 hwf
    exact decodeJR_ok.2 ⟨rb, rc, rfl, hb, hc, congrArg (layJR · rb rc) hop.symm⟩
  | ojmpImm ra v | zjmpImm ra v => exact decodeCJ_ok.2 ⟨ra, v, rfl, congrArg (layI16 · ra v) hop.symm⟩
  | ojmpReg ra rb rc | zjmpReg ra rb rc =>
    obtain ⟨hb, hc⟩ := Bool.and_eq_true_iff.1 hwf
    exact decodeThree_ok.2 ⟨ra, rb, rc, rfl, rfl, hb, hc, congrArg (layThree · ra rb rc) hop.symm⟩

/-- The decoder and the encoder are each other's inverse on well-formed instructions (R69). -/
theorem decode_ok_iff {w : Word} {i : Instr} : decode w = .ok i ↔ i.wf = true ∧ encode i = some w := by
  refine ⟨wf_and_encode_of_decode, fun ⟨hwf, he⟩ => ?_⟩
  obtain ⟨henc, rfl⟩ := encode_eq_some_iff.1 he
  exact decode_layout hwf henc

end Sys2Proof
end

section
/-! ## Instructions that write one register: the word, the completion, the value and the frame -/
namespace Sys2Proof.Machine

/-- `Target` is the range of a field that names a target (R62). -/
theorem contains_target_iff {l : Label} : LabelRange.target.contains l = true ↔ Target l := by
  simp [LabelRange.contains]

/-- The word of an instruction and the range of its fields settle all the decoder says about it. -/
theorem encoded_of_encode {i : Instr} {ranges : Prop} {w : Word} (he : encode i = some w)
    (hr : i.wf = true ↔ ranges) : Encoded i ranges w := by
  refine ⟨fun _ => he, fun v => ?_⟩
  rw [decode_ok_iff, hr, he, Option.some.injEq, eq_comm (a := w)]

theorem encode_of_layThree {i : Instr} {op : Nat} {ra rb rc : Label}
    (h : encode i = some (layThree (BitVec.ofNat 10 op) ra rb rc)) : encode i = some (wordThree op ra rb rc) :=
  h.trans (congrArg some (layThree_eq op ra rb rc))

theorem encode_of_layREG2 {i : Instr} {op : Nat} {ra rc : Label}
    (h : encode i = some (layREG2 (BitVec.ofNat 10 op) ra rc)) : encode i = some (wordTwo op ra rc) :=
  h.trans (congrArg some (layREG2_eq op ra rc))

theorem encode_of_layRI {i : Instr} {op : Nat} {ra rb : Label} {v : BitVec 10}
    (h : encode i = some (layRI (BitVec.ofNat 10 op) ra rb v)) : encode i = some (wordRI op ra rb v) :=
  h.trans (congrArg some (layRI_eq op ra rb v))

/-- `writeResult` to a target changes the target and %PC and nothing else (R16, R88, R105). -/
theorem writesOnly_writeResult (s : State) {ra : Label} (v : Word) (h : Target ra) :
    WritesOnly s (s.setReg ra v).advance ra v :=
  ⟨reg_writeResult_same s ra v h.1 h.2, fun l hne hpc => reg_writeResult_ne s ra l v hne hpc, rfl, rfl,
    fun _ => rfl⟩

/-- An instruction that ends in `writeResult` computes the value it hands over. -/
theorem computes_of_writeResult {i : Instr} {ra : Label} {value : State → Word}
    (he : ∀ s, exec i s = writeResult s ra (value s)) (h : Target ra) : Computes i ra value :=
  fun s => ⟨(s.setReg ra (value s)).advance, he s, writesOnly_writeResult s (value s) h⟩

/-- The same, said bit by bit. -/
theorem computesBits_of_computes {i : Instr} {ra : Label} {value : State → Word} {bit : State → Nat → Bool}
    (h : Computes i ra value) (hb : ∀ s, ∀ k < 32, (value s).getLsbD k = bit s k) : ComputesBits i ra bit := by
  intro s
  obtain ⟨t, hnext, hwrites⟩ := h s
  have hval : t.reg ra = value s := hwrites.1
  exact ⟨t, hnext, hval.symm ▸ hwrites, fun k hk => by rw [hval, hb s k hk]⟩

/-- An instruction whose only field with a narrower range is its target, and which ends in `writeResult`. -/
theorem hasWordAndValue {i : Instr} {ra : Label} {w : Word} {value : State → Word} (henc : encode i = some w)
    (hwf : i.wf = LabelRange.target.contains ra) (he : ∀ s, exec i s = writeResult s ra (value s)) :
    HasWordAndValue i (Target ra) w ra value :=
  ⟨encoded_of_encode henc (by rw [hwf, contains_target_iff]), computes_of_writeResult he⟩

/-- The same, said bit by bit. -/
theorem hasWordAndBits {i : Instr} {ra : Label} {w : Word} {value : State → Word} {bit : State → Nat → Bool}
    (henc : encode i = some w) (hwf : i.wf = LabelRange.target.contains ra)
    (he : ∀ s, exec i s = writeResult s ra (value s)) (hb : ∀ s, ∀ k < 32, (value s).getLsbD k = bit s k) :
    HasWordAndBits i (Target ra) w ra bit :=
  ⟨(hasWordAndValue henc hwf he).1, fun h => computesBits_of_computes (computes_of_writeResult he h) hb⟩

end Sys2Proof.Machine
end

section
/-! ## The operations of spec/42_integer_ops.md, as numbers and bit by bit -/
namespace Sys2Proof.Machine

theorem sum_eq_ofNat (p : Pair) : sum p = BitVec.ofNat 32 (p.1.toNat + p.2.toNat) :=
  BitVec.eq_of_toNat_eq (by simp [sum])

theorem difference_eq_ofInt (p : Pair) : difference p = BitVec.ofInt 32 (p.1.toNat - p.2.toNat : Int) := by
  apply BitVec.eq_of_toNat_eq
  rw [difference, BitVec.toNat_sub, BitVec.toNat_ofInt]
  omega

theorem getLsbD_bitAnd (p : Pair) (k : Nat) : (bitAnd p).getLsbD k = (p.1.getLsbD k && p.2.getLsbD k) :=
  BitVec.getLsbD_and

theorem getLsbD_bitOr (p : Pair) (k : Nat) : (bitOr p).getLsbD k = (p.1.getLsbD k || p.2.getLsbD k) :=
  BitVec.getLsbD_or

theorem getLsbD_bitXor (p : Pair) (k : Nat) : (bitXor p).getLsbD k = (p.1.getLsbD k != p.2.getLsbD k) :=
  BitVec.getLsbD_xor

/-- An immediate operand has the immediate's bits, and zeros above them (R60). -/
theorem getLsbD_immOperand {n : Nat} (v : BitVec n) {k : Nat} (hk : k < 32) :
    (immOperand v).getLsbD k = (decide (k < n) && v.getLsbD k) := by
  by_cases hn : k < n
  · simp [immOperand, hk, hn]
  · simp [immOperand, hn, BitVec.getLsbD_of_ge v k (by omega)]

end Sys2Proof.Machine
end

section
/-! ## The statements about spec/42_integer_ops.md -/
namespace Sys2Proof.Machine

/-- Settles O1: each form ends in `writeResult` with the sum or difference of its operands. -/
theorem addAndSubtractImmediateForms : Obligations.AddAndSubtractImmediateForms := by
  intro ra rb rc imm10
  have imm : (immOperand imm10).toNat = imm10.toNat := immOperand_toNat imm10 (by omega)
  refine ⟨hasWordAndValue (encode_of_layThree rfl) rfl fun s => ?_,
    hasWordAndValue (encode_of_layRI rfl) rfl fun s => ?_, hasWordAndValue (encode_of_layRI rfl) rfl fun s => ?_,
    hasWordAndValue (encode_of_layRI rfl) rfl fun s => ?_⟩
  case refine_1 => exact congrArg (writeResult s ra) (sum_eq_ofNat (operandsRR s rb rc))
  case refine_2 => rw [← imm]; exact congrArg (writeResult s ra) (sum_eq_ofNat (operandsRI s rb imm10))
  case refine_3 => rw [← imm]; exact congrArg (writeResult s ra) (difference_eq_ofInt (operandsRI s rb imm10))
  case refine_4 => rw [← imm]; exact congrArg (writeResult s ra) (difference_eq_ofInt (operandsIR s rb imm10))

/-- Settles O3: AND and XOR act on each bit alone. -/
theorem andXorOfRegistersBitwise : Obligations.AndXorOfRegistersBitwise := fun _ rb rc =>
  ⟨hasWordAndBits (encode_of_layThree rfl) rfl (fun _ => rfl) fun s k _ => getLsbD_bitAnd (operandsRR s rb rc) k,
    hasWordAndBits (encode_of_layThree rfl) rfl (fun _ => rfl) fun s k _ => getLsbD_bitXor (operandsRR s rb rc) k⟩

/-- Settles O4: OR and XOR act on each bit alone, and bits 31:10 of the immediate operand are zero. -/
theorem orXorWithImmediateBitwise : Obligations.OrXorWithImmediateBitwise := by
  intro ra rb imm10
  refine ⟨hasWordAndBits (encode_of_layRI rfl) rfl (fun _ => rfl) fun s k hk => ?_,
    hasWordAndBits (encode_of_layRI rfl) rfl (fun _ => rfl) fun s k hk => ?_⟩
  case refine_1 => rw [← getLsbD_immOperand imm10 hk]; exact getLsbD_bitOr (operandsRI s rb imm10) k
  case refine_2 => rw [← getLsbD_immOperand imm10 hk]; exact getLsbD_bitXor (operandsRI s rb imm10) k

/-- Settles O6: the complement inverts each bit below 32. -/
theorem notOfRegisterInvertsEveryBit : Obligations.NotOfRegisterInvertsEveryBit := fun _ rc =>
  hasWordAndBits (encode_of_layREG2 rfl) rfl (fun _ => rfl) fun s k hk => by
    simpa only [hk, decide_true, Bool.true_and] using BitVec.getLsbD_not (x := s.reg rc) (i := k)

end Sys2Proof.Machine
end

section
/-! ## The statements about spec/44_branch_ops.md -/
namespace Sys2Proof.Machine

/-- The bit EQ writes is 1 exactly when its operands are the same number (R168, R169). -/
theorem truth_isEqual (p : Pair) : truth (isEqual p) = if p.1.toNat = p.2.toNat then 1#32 else 0#32 := by
  simp only [truth, isEqual, decide_eq_true_eq, BitVec.toNat_inj]

/-- Settles O21: both forms end in `writeResult` with the equality of their operands, and the immediate operand is
the immediate's number. -/
theorem equalityCompares : Obligations.EqualityCompares := by
  intro ra rb rc imm10
  have imm : (immOperand imm10).toNat = imm10.toNat := immOperand_toNat imm10 (by omega)
  refine ⟨hasWordAndValue (encode_of_layThree rfl) rfl fun s => ?_,
    hasWordAndValue (encode_of_layRI rfl) rfl fun s => ?_⟩
  case refine_1 => exact congrArg (writeResult s ra) (truth_isEqual (operandsRR s rb rc))
  case refine_2 => rw [← imm]; exact congrArg (writeResult s ra) (truth_isEqual (operandsRI s rb imm10))

end Sys2Proof.Machine
end

section
/-! ## The statements about the decoder against the encoder (spec/30_encoding.md R62 to R69) -/
namespace Sys2Proof.Machine

/-- BOR_RR alone has no word (R65, D13). -/
theorem encode_eq_none_iff {i : Instr} : encode i = none ↔ ∃ ra rb rc, i = .borRR ra rb rc := by
  refine ⟨fun h => ?_, ?_⟩
  · cases i with
    | borRR ra rb rc => exact ⟨ra, rb, rc, rfl⟩
    | _ => cases h
  · rintro ⟨ra, rb, rc, rfl⟩
    rfl

/-- Settles O41: decoder and encoder are inverse on well-formed instructions. -/
theorem decodeOfEncodedInstruction : Obligations.DecodeOfEncodedInstruction :=
  fun _ hwf => ⟨fun _ he => decode_ok_iff.2 ⟨hwf, he⟩, encode_eq_none_iff⟩

/-- Settles O42: every row of the decoder reads back the word it was given. -/
theorem encodeOfDecodedWord : Obligations.EncodeOfDecodedWord := fun _ _ h => wf_and_encode_of_decode h

end Sys2Proof.Machine
end

section
/-! ## The statements about the canonical form of memory (spec/20_memory.md sections 1 and 3) -/
namespace Sys2Proof.Machine

/-- No instruction takes memory out of its canonical form: only a store writes memory, and it writes backed bytes. -/
theorem exec_keeps_inv {i : Instr} {s t : State} (hs : s.Inv) (h : exec i s = .next t) : t.Inv := by
  rcases exec_next_cases h with ⟨-, -, -, ra, v, -, rfl⟩ | ⟨-, -, -, -, m, rb, rc, n, rfl, -, hwf, -⟩ | ⟨-, -, -, rfl⟩
  · exact hs
  · exact hwf hs
  · exact hs

/-- Settles O48: a step that answers a next state is an instruction that does. -/
theorem canonicalMemoryKeptByStep : Obligations.CanonicalMemoryKeptByStep := by
  intro s t hs h
  obtain ⟨w, i, -, -, hexec⟩ := step_next.1 h
  exact exec_keeps_inv hs hexec

/-- Settles O49: at reset the memory lists no byte and one region, the whole address space. -/
theorem canonicalMemoryAtReset : Obligations.CanonicalMemoryAtReset := by
  unfold Obligations.CanonicalMemoryAtReset
  decide

end Sys2Proof.Machine
end

section
/-! ## Why a word is rejected (spec/30_encoding.md R63, R66, R67, R69) -/
namespace Sys2Proof
open Machine

/-- `d` reads something, or rejects it for a register label. -/
def ReadsOrMislabelled {α : Type} (d : Except DecodeReject α) : Prop := d = .error .labelRange ∨ ∃ a, d = .ok a

theorem readsOrMislabelled_ok {α : Type} (a : α) : ReadsOrMislabelled (.ok a) := .inr ⟨a, rfl⟩

theorem readsOrMislabelled_labelIn (c : Settings) (r : LabelRange) (f : BitVec 6) :
    ReadsOrMislabelled (labelIn c r f) := by
  unfold labelIn
  split
  · split
    · exact readsOrMislabelled_ok _
    · exact .inl rfl
  · exact .inl rfl

/-- Reading a label and going on with it adds no other reason to reject. -/
theorem readsOrMislabelled_bind {α : Type} {r : LabelRange} {f : BitVec 6} {g : Label → Except DecodeReject α}
    (hg : ∀ l, ReadsOrMislabelled (g l)) : ReadsOrMislabelled (labelIn settings r f >>= g) := by
  rcases readsOrMislabelled_labelIn settings r f with e | ⟨l, e⟩ <;> rw [e]
  · exact .inl rfl
  · exact hg l

/-- `d` rejects `w` for a non-zero field when it has a 1 under the mask, and else at most for a label. -/
def ChecksZeros (w mask : Word) (d : Except DecodeReject Instr) : Prop :=
  (w &&& mask ≠ 0#32 ∧ d = .error .nonzeroField) ∨ (w &&& mask = 0#32 ∧ ReadsOrMislabelled d)

theorem checksZeros_none {w : Word} {d : Except DecodeReject Instr} (hd : ReadsOrMislabelled d) :
    ChecksZeros w 0#32 d := .inr ⟨BitVec.and_zero, hd⟩

/-- The zero check of a format comes before the reading of its labels (R69). -/
theorem checksZeros_ite {w mask : Word} {n : Nat} {f : BitVec n} {d : Except DecodeReject Instr}
    (hf : f = 0#n ↔ w &&& mask = 0#32) (hd : ReadsOrMislabelled d) :
    ChecksZeros w mask (if zeroOk settings f then d else .error .nonzeroField) := by
  by_cases hz : w &&& mask = 0#32
  · rw [if_pos ((zeroOk_settings f).2 (hf.2 hz))]
    exact .inr ⟨hz, hd⟩
  · rw [if_neg (mt (fun h => hf.1 ((zeroOk_settings f).1 h)) hz)]
    exact .inl ⟨hz, rfl⟩

/-- A field is zero exactly when the word has no 1 under the field's mask. -/
theorem extractLsb'_eq_zero_iff (w : Word) (lo n : Nat) :
    w.extractLsb' lo n = 0#n ↔ w &&& (BitVec.allOnes n).setWidth 32 <<< lo = 0#32 := by
  constructor
  · intro h
    refine BitVec.eq_of_getLsbD_eq fun k hk => ?_
    have hbit := congrArg (fun f => f.getLsbD (k - lo)) h
    simp only [BitVec.getLsbD_extractLsb', BitVec.getLsbD_zero] at hbit
    by_cases hlo : lo ≤ k ∧ k - lo < n
    · obtain ⟨hle, hlt⟩ := hlo
      rw [Nat.add_sub_cancel' hle] at hbit
      simp_all
    · simp only [BitVec.getLsbD_and, BitVec.getLsbD_shiftLeft, BitVec.getLsbD_setWidth, BitVec.getLsbD_allOnes]
      grind
  · intro h
    refine BitVec.eq_of_getLsbD_eq fun k hk => ?_
    by_cases hw : lo + k < 32
    · have hbit := congrArg (fun f => f.getLsbD (lo + k)) h
      simpa [hk, hw, show k < 32 by omega] using hbit
    · simp [BitVec.getLsbD_of_ge w (lo + k) (by omega)]

section Formats
variable {w : Word}

theorem checksZeros_i8 {mk : Label → BitVec 8 → Instr} : ChecksZeros w 0x0000FF00#32 (decodeI8 settings w mk) :=
  checksZeros_ite (extractLsb'_eq_zero_iff w 8 8) (readsOrMislabelled_bind fun _ => readsOrMislabelled_ok _)

theorem checksZeros_three {rA rB rC : LabelRange} {mk : Label → Label → Label → Instr} :
    ChecksZeros w 0x0000F000#32 (decodeThree settings w rA rB rC mk) :=
  checksZeros_ite (extractLsb'_eq_zero_iff w 12 4) (readsOrMislabelled_bind fun _ =>
    readsOrMislabelled_bind fun _ => readsOrMislabelled_bind fun _ => readsOrMislabelled_ok _)

theorem checksZeros_reg2 {rC : LabelRange} {mk : Label → Label → Instr} :
    ChecksZeros w 0x0000FFC0#32 (decodeREG2 settings w rC mk) :=
  checksZeros_ite (extractLsb'_eq_zero_iff w 6 10) (readsOrMislabelled_bind fun _ =>
    readsOrMislabelled_bind fun _ => readsOrMislabelled_ok _)

theorem checksZeros_jr {mk : Label → Label → Instr} : ChecksZeros w 0x003FF000#32 (decodeJR settings w mk) :=
  checksZeros_ite (extractLsb'_eq_zero_iff w 12 10) (readsOrMislabelled_bind fun _ =>
    readsOrMislabelled_bind fun _ => readsOrMislabelled_ok _)

theorem checksZeros_i16 {mk : Label → BitVec 16 → Instr} : ChecksZeros w 0#32 (decodeI16 settings w mk) :=
  checksZeros_none (readsOrMislabelled_bind fun _ => readsOrMislabelled_ok _)

theorem checksZeros_cj {mk : Label → BitVec 16 → Instr} : ChecksZeros w 0#32 (decodeCJ settings w mk) :=
  checksZeros_none (readsOrMislabelled_bind fun _ => readsOrMislabelled_ok _)

theorem checksZeros_ri {mk : Label → Label → BitVec 10 → Instr} : ChecksZeros w 0#32 (decodeRI settings w mk) :=
  checksZeros_none (readsOrMislabelled_bind fun _ => readsOrMislabelled_bind fun _ => readsOrMislabelled_ok _)

theorem checksZeros_ii {mk : Label → BitVec 10 → BitVec 6 → Instr} : ChecksZeros w 0#32 (decodeII settings w mk) :=
  checksZeros_none (readsOrMislabelled_bind fun _ => readsOrMislabelled_ok _)

end Formats

/-- Row by row of R64, with the format of each row: every assigned opcode checks its zero fields. -/
theorem decodeOp_checks (w : Word) (op : Nat) :
    (Unassigned op ∧ decodeOp settings w op = .error .unassignedOpcode) ∨
    (¬ Unassigned op ∧ ChecksZeros w (zeroMask op) (decodeOp settings w op)) := by
  unfold decodeOp
  split
  case h_1 => exact .inr ⟨by unfold Unassigned; decide, checksZeros_i8⟩
  case h_2 | h_4 | h_5 | h_6 | h_7 | h_8 | h_10 | h_12 | h_15 | h_20 | h_25 | h_27 | h_30 | h_34 | h_38 | h_42 | h_46
      | h_48 | h_50 | h_52 | h_54 | h_59 | h_61 =>
    exact .inr ⟨by unfold Unassigned; decide, checksZeros_three⟩
  case h_3 | h_19 => exact .inr ⟨by unfold Unassigned; decide, checksZeros_i16⟩
  case h_9 | h_18 | h_22 | h_23 | h_24 => exact .inr ⟨by unfold Unassigned; decide, checksZeros_reg2⟩
  case h_11 | h_13 | h_14 | h_16 | h_17 | h_21 | h_26 | h_28 | h_29 | h_31 | h_32 | h_35 | h_36 | h_39 | h_40 | h_43
      | h_44 | h_47 | h_49 | h_51 | h_53 | h_55 =>
    exact .inr ⟨by unfold Unassigned; decide, checksZeros_ri⟩
  case h_33 | h_37 | h_41 | h_45 => exact .inr ⟨by unfold Unassigned; decide, checksZeros_ii⟩
  case h_56 => exact .inr ⟨by unfold Unassigned; decide, checksZeros_none (readsOrMislabelled_ok _)⟩
  case h_57 => exact .inr ⟨by unfold Unassigned; decide, checksZeros_jr⟩
  case h_58 | h_60 => exact .inr ⟨by unfold Unassigned; decide, checksZeros_cj⟩
  case h_62 =>
    refine .inl ⟨?_, rfl⟩
    simp only [imp_false] at *
    unfold Unassigned
    omega

theorem zeroMask_of_unassigned {op : Nat} (h : Unassigned op) : zeroMask op = 0#32 := by
  unfold Unassigned at h
  simp only [zeroMask, List.cons_append, List.nil_append, List.mem_cons, List.not_mem_nil, or_false]
  repeat rw [if_neg (by omega)]

theorem opField_toNat (w : Word) : (opField w).toNat = opcodeNumber w := by
  have := w.isLt
  simp only [opField, opcodeNumber, BitVec.extractLsb'_toNat, Nat.shiftRight_eq_div_pow]
  omega

theorem decodeWith_eq (c : Settings) (w : Word) : decodeWith c w = decodeOp c w (opcodeNumber w) :=
  congrArg (decodeOp c w) (opField_toNat w)

theorem decode_checks (w : Word) :
    (Unassigned (opcodeNumber w) ∧ decode w = .error .unassignedOpcode) ∨
    (¬ Unassigned (opcodeNumber w) ∧ ChecksZeros w (zeroMask (opcodeNumber w)) (decode w)) := by
  rw [decode, decodeWith_eq]
  exact decodeOp_checks w _

/-- The reasons for which the decoder rejects a word under the settings in force: each is IllegalInstruction. -/
theorem decode_error {w : Word} {r : DecodeReject} (h : decode w = .error r) :
    r = .unassignedOpcode ∨ r = .nonzeroField ∨ r = .labelRange := by
  rcases decode_checks w with ⟨-, e⟩ | ⟨-, ⟨-, e⟩ | ⟨-, e | ⟨i, e⟩⟩⟩ <;> rw [e] at h <;> cases h
  · exact .inl rfl
  · exact .inr (.inl rfl)
  · exact .inr (.inr rfl)

end Sys2Proof
end

section
/-! ## The statements about rejected words -/
namespace Sys2Proof.Machine

/-- Settles O43: no row of an assigned opcode rejects a word as unassigned. -/
theorem unassignedOpcodesRejected : Obligations.UnassignedOpcodesRejected := by
  intro w
  rcases decode_checks w with ⟨hop, e⟩ | ⟨hop, ⟨-, e⟩ | ⟨-, e | ⟨i, e⟩⟩⟩ <;> simp [hop, e]

/-- Settles O44: the zero check of a row comes before its label checks. -/
theorem nonzeroFieldsRejected : Obligations.NonzeroFieldsRejected := by
  intro w
  rcases decode_checks w with ⟨hop, e⟩ | ⟨-, ⟨hz, e⟩ | ⟨hz, e | ⟨i, e⟩⟩⟩
  · simp [e, zeroMask_of_unassigned hop]
  · simp [e, hz]
  · simp [e, hz]
  · simp [e, hz]

/-- Settles O46: the refusing setting alone decides the row of each of the five opcodes. -/
theorem refusingSettingsDecline : Obligations.RefusingSettingsDecline := by
  intro s w
  refine ⟨fun h => ?_, fun hlo hhi => ?_, rfl⟩
  · rw [decodeWith_eq, h]
    rfl
  · rw [decodeWith_eq]
    have hop : opcodeNumber w = 0x302 ∨ opcodeNumber w = 0x303 ∨ opcodeNumber w = 0x304 ∨ opcodeNumber w = 0x305 := by
      omega
    rcases hop with h | h | h | h <;> rw [h] <;> rfl

end Sys2Proof.Machine
end

section
/-! ## Decoding with STRICT_DECODE = false (spec/30_encoding.md R63, D10, D11) -/
namespace Sys2Proof
open Machine

/-- STRICT_DECODE = false. -/
def lenient : Settings := { settings with strictDecode := false }

/-- `d'` reads what `d` reads, and no instruction with a target outside 1 to 40. -/
def LenientRow (d d' : Except DecodeReject Instr) : Prop :=
  (∀ i, d = .ok i → d' = .ok i) ∧ ∀ i ra, d' = .ok i → targetOf i = some ra → Target ra

theorem lenientRow_ok {i : Instr} (h : ∀ ra, targetOf i = some ra → Target ra) : LenientRow (.ok i) (.ok i) :=
  ⟨fun _ e => e, by rintro _ ra ⟨⟩; exact h ra⟩

theorem lenientRow_error {r r' : DecodeReject} : LenientRow (.error r) (.error r') := ⟨nofun, nofun⟩

/-- A field that names a register strictly names the same one leniently. -/
theorem labelIn_lenient {r : LabelRange} {f : BitVec 6} {l : Label} (h : labelIn settings r f = .ok l) :
    labelIn lenient r f = .ok l := by
  obtain ⟨rfl, hr⟩ := labelIn_ok.1 h
  simp [labelIn, hr]

/-- The range of a target field is checked under every setting (R63). -/
theorem target_of_labelIn {c : Settings} {f : BitVec 6} {l : Label} (h : labelIn c .target f = .ok l) : Target l := by
  unfold labelIn at h
  split at h
  · split at h
    · rename_i hr
      cases h
      exact contains_target_iff.1 (by simpa using hr)
    · cases h
  · cases h

section Formats
variable {w : Word}

theorem lenientRow_bind {r : LabelRange} {f : BitVec 6} {g g' : Label → Except DecodeReject Instr}
    (h : ∀ l, (r = .target → Target l) → LenientRow (g l) (g' l)) :
    LenientRow (labelIn settings r f >>= g) (labelIn lenient r f >>= g') := by
  cases e' : labelIn lenient r f with
  | error x =>
    refine ⟨fun i hi => ?_, nofun⟩
    cases e : labelIn settings r f with
    | error y => rw [e] at hi; cases hi
    | ok l => rw [labelIn_lenient e] at e'; cases e'
  | ok l =>
    obtain ⟨hreads, htarget⟩ := h l (by rintro rfl; exact target_of_labelIn e')
    refine ⟨fun i hi => ?_, htarget⟩
    cases e : labelIn settings r f with
    | error y => rw [e] at hi; cases hi
    | ok k =>
      obtain rfl : k = l := by rw [labelIn_lenient e] at e'; exact Except.ok.inj e'
      rw [e] at hi
      exact hreads i hi

theorem lenientRow_ite {n : Nat} {f : BitVec n} {d d' : Except DecodeReject Instr} (h : LenientRow d d') :
    LenientRow (if zeroOk settings f then d else .error .nonzeroField)
      (if zeroOk lenient f then d' else .error .nonzeroField) := by
  rw [if_pos (show zeroOk lenient f = true from rfl)]
  split
  · exact h
  · exact ⟨nofun, h.2⟩

theorem lenientRow_i8 {mk : Label → BitVec 8 → Instr} (h : ∀ ra v, targetOf (mk ra v) = some ra) :
    LenientRow (decodeI8 settings w mk) (decodeI8 lenient w mk) :=
  lenientRow_ite (lenientRow_bind fun ra ha => lenientRow_ok (by simpa [h] using ha rfl))

theorem lenientRow_i16 {mk : Label → BitVec 16 → Instr} (h : ∀ ra v, targetOf (mk ra v) = some ra) :
    LenientRow (decodeI16 settings w mk) (decodeI16 lenient w mk) :=
  lenientRow_bind fun ra ha => lenientRow_ok (by simpa [h] using ha rfl)

theorem lenientRow_cj {mk : Label → BitVec 16 → Instr} (h : ∀ ra v, targetOf (mk ra v) = none) :
    LenientRow (decodeCJ settings w mk) (decodeCJ lenient w mk) :=
  lenientRow_bind fun ra _ => lenientRow_ok (by simp [h])

/-- A format with three registers whose first is a target, or of an instruction that writes no register. -/
theorem lenientRow_three {rA rB rC : LabelRange} {mk : Label → Label → Label → Instr}
    (h : ∀ ra rb rc l, targetOf (mk ra rb rc) = some l → rA = .target ∧ l = ra) :
    LenientRow (decodeThree settings w rA rB rC mk) (decodeThree lenient w rA rB rC mk) :=
  lenientRow_ite (lenientRow_bind fun ra ha => lenientRow_bind fun rb _ => lenientRow_bind fun rc _ =>
    lenientRow_ok fun l hl => by
      obtain ⟨hr, rfl⟩ := h ra rb rc l hl
      exact ha hr)

theorem lenientRow_reg2 {rC : LabelRange} {mk : Label → Label → Instr} (h : ∀ ra rc, targetOf (mk ra rc) = some ra) :
    LenientRow (decodeREG2 settings w rC mk) (decodeREG2 lenient w rC mk) :=
  lenientRow_ite (lenientRow_bind fun ra ha => lenientRow_bind fun rc _ => lenientRow_ok (by simpa [h] using ha rfl))

theorem lenientRow_ri {mk : Label → Label → BitVec 10 → Instr} (h : ∀ ra rb v, targetOf (mk ra rb v) = some ra) :
    LenientRow (decodeRI settings w mk) (decodeRI lenient w mk) :=
  lenientRow_bind fun ra ha => lenientRow_bind fun rb _ => lenientRow_ok (by simpa [h] using ha rfl)

theorem lenientRow_ii {mk : Label → BitVec 10 → BitVec 6 → Instr} (h : ∀ ra v u, targetOf (mk ra v u) = some ra) :
    LenientRow (decodeII settings w mk) (decodeII lenient w mk) :=
  lenientRow_bind fun ra ha => lenientRow_ok (by simpa [h] using ha rfl)

theorem lenientRow_jr {mk : Label → Label → Instr} (h : ∀ rb rc, targetOf (mk rb rc) = none) :
    LenientRow (decodeJR settings w mk) (decodeJR lenient w mk) :=
  lenientRow_ite (lenientRow_bind fun rb _ => lenientRow_bind fun rc _ => lenientRow_ok (by simp [h]))

end Formats

/-- Row by row of R64, with the format of each row. -/
theorem lenientRow_decodeOp (w : Word) (op : Nat) : LenientRow (decodeOp settings w op) (decodeOp lenient w op) := by
  unfold decodeOp
  split
  case h_1 => exact lenientRow_i8 fun _ _ => rfl
  case h_2 | h_4 | h_5 | h_10 | h_12 | h_15 | h_20 | h_25 | h_27 | h_30 | h_34 | h_38 | h_42 | h_46 | h_48 | h_50 | h_52
      | h_54 => exact lenientRow_three fun _ _ _ _ hl => ⟨rfl, (Option.some.inj hl).symm⟩
  case h_6 | h_7 | h_8 | h_59 | h_61 => exact lenientRow_three nofun
  case h_3 | h_19 => exact lenientRow_i16 fun _ _ => rfl
  case h_9 | h_18 | h_22 | h_23 | h_24 => exact lenientRow_reg2 fun _ _ => rfl
  case h_11 | h_13 | h_14 | h_16 | h_17 | h_21 | h_26 | h_28 | h_29 | h_31 | h_32 | h_35 | h_36 | h_39 | h_40 | h_43
      | h_44 | h_47 | h_49 | h_51 | h_53 | h_55 => exact lenientRow_ri fun _ _ _ => rfl
  case h_33 | h_37 | h_41 | h_45 => exact lenientRow_ii fun _ _ _ => rfl
  case h_56 => exact lenientRow_ok nofun
  case h_57 => exact lenientRow_jr fun _ _ => rfl
  case h_58 | h_60 => exact lenientRow_cj fun _ _ => rfl
  case h_62 => exact lenientRow_error

end Sys2Proof
end

section
/-! ## The statements about other settings, about words as bytes and about words of the spec's examples -/
namespace Sys2Proof.Machine

/-- Settles O45: every row reads leniently what it reads strictly, and checks its target field under both. -/
theorem lenientDecodeExtendsStrict : Obligations.LenientDecodeExtendsStrict :=
  ⟨fun w => (lenientRow_decodeOp w _).1, fun w => (lenientRow_decodeOp w _).2⟩

/-- Byte `k` of a word, in arithmetic. -/
theorem extractLsb'_byte (w : Word) (k : Nat) : w.extractLsb' (8 * k) 8 = BitVec.ofNat 8 (w.toNat / 256 ^ k) := by
  apply BitVec.eq_of_toNat_eq
  rw [BitVec.extractLsb'_toNat, BitVec.toNat_ofNat, Nat.shiftRight_eq_div_pow, Nat.pow_mul]

/-- The bytes of a word, least significant first, make the word. -/
theorem wordOfBytes_little (w : Word) :
    wordOfBytes .little (w.extractLsb' 0 8) (w.extractLsb' 8 8) (w.extractLsb' 16 8) (w.extractLsb' 24 8) = w := by
  apply BitVec.eq_of_toNat_eq
  have := w.isLt
  simp only [wordOfBytes, toNat_append_add, BitVec.extractLsb'_toNat, Nat.shiftRight_eq_div_pow]
  omega

/-- The decoder on the four bytes of a word and what follows them. -/
theorem decodeBytes_bytesOfWord (w : Word) (rest : List Byte) :
    decodeBytes (bytesOfWord .little w ++ rest) = (decode w).map (fun i => (i, rest)) := by
  simp only [bytesOfWord, List.cons_append, List.nil_append, decodeBytes, settings_endian, wordOfBytes_little]
  cases decode w <;> rfl

/-- Settles O47: the four bytes of a word, in arithmetic, are its bytes from the lowest address up. -/
theorem bytesDecodeAsWord : Obligations.BytesDecodeAsWord := by
  refine ⟨fun w rest i => ?_, fun bs hbs => ?_, fun nbits n i => ?_⟩
  case refine_1 =>
    have bytes : BitVec.ofNat 8 w.toNat :: BitVec.ofNat 8 (w.toNat / 256) :: BitVec.ofNat 8 (w.toNat / 65536) ::
        BitVec.ofNat 8 (w.toNat / 16777216) :: rest = bytesOfWord .little w ++ rest := by
      have h0 := extractLsb'_byte w 0
      have h1 := extractLsb'_byte w 1
      have h2 := extractLsb'_byte w 2
      have h3 := extractLsb'_byte w 3
      simp only [Nat.reduceMul, Nat.reducePow, Nat.div_one] at h0 h1 h2 h3
      simp only [bytesOfWord, List.cons_append, List.nil_append, h0, h1, h2, h3]
    rw [bytes, decodeBytes_bytesOfWord]
    cases decode w <;> simp [Except.map]
  case refine_2 =>
    match bs, hbs with
    | [], _ | [_], _ | [_, _], _ | [_, _, _], _ => rfl
  case refine_3 =>
    have h := decodeBytes_bytesOfWord (BitVec.ofNat 32 (n % 2 ^ nbits)) []
    rw [List.append_nil] at h
    rw [decodeTableWord, settings_endian, h]
    cases decode (BitVec.ofNat 32 (n % 2 ^ nbits)) <;> simp [Except.map]

/-- Settles O40: fourteen closed words. -/
theorem sampleWordsDecode : Obligations.SampleWordsDecode := by
  unfold Obligations.SampleWordsDecode
  decide

end Sys2Proof.Machine
end

section
/-! ## The assembler: what each form makes of its operands (spec/30_encoding.md R70 to R75) -/
namespace Sys2Proof.Machine

/-- An immediate fits the field it comes from (R60). -/
theorem fits_toNat {w : Nat} (v : BitVec w) : fits w v.toNat = some v := by
  simp [fits, v.isLt]

/-- A number that does not fit is refused (R75, D34). -/
theorem fits_eq_none {w n : Nat} (h : 2 ^ w ≤ n) : fits w n = none := if_neg (Nat.not_lt.2 h)

/-- An address operand gives back base and index, an absent index being %ZERO (R32, R73). -/
theorem memOperand_eq (rb rc : Label) : ∃ x, memOperand rb rc = .memReg rb x ∧ indexLabel x = rc := by
  by_cases h : rc.val = 0
  · exact ⟨none, by simp [memOperand, h], Fin.ext h.symm⟩
  · exact ⟨some rc, by simp [memOperand, h], rfl⟩

section Forms
variable (symbols : List (String × Nat)) (ra rb rc : Label)

theorem loadForm_memOperand (imm : Option (Nat → Label → Option Instr)) (mem : Label → Label → Label → Instr) :
    loadForm [memOperand rb rc, .reg ra] imm mem = some (mem ra rb rc) := by
  obtain ⟨x, hx, rfl⟩ := memOperand_eq rb rc
  rw [hx]
  rfl

theorem storeForm_memOperand (make : Label → Label → Label → Instr) :
    storeForm [.reg ra, memOperand rb rc] make = some (make ra rb rc) := by
  obtain ⟨x, hx, rfl⟩ := memOperand_eq rb rc
  rw [hx]
  rfl

theorem jumpForm_memOperand : jumpForm symbols [memOperand rb rc] = some (.jmpReg rb rc) := by
  obtain ⟨x, hx, rfl⟩ := memOperand_eq rb rc
  rw [hx]
  rfl

theorem condJumpForm_memOperand (imm : Label → BitVec 16 → Instr) (reg : Label → Label → Label → Instr) :
    condJumpForm symbols [.reg ra, memOperand rb rc] imm reg = some (reg ra rb rc) := by
  obtain ⟨x, hx, rfl⟩ := memOperand_eq rb rc
  rw [hx]
  rfl

end Forms

/-- The mnemonic and the kinds of the operands choose the instruction of the statement, whatever its labels (R73). -/
theorem formOf_statementOf (symbols : List (String × Nat)) (i : Instr) :
    formOf symbols (statementOf i).mnemonic (statementOf i).operands = some i := by
  cases i with
  | load8Mem ra rb rc | load16Mem ra rb rc | load32Mem ra rb rc => simp only [statementOf, formOf, loadForm_memOperand]
  | store8 ra rb rc | store16 ra rb rc | store32 ra rb rc => exact storeForm_memOperand ra rb rc _
  | jmpReg rb rc => exact jumpForm_memOperand symbols rb rc
  | ojmpReg ra rb rc | zjmpReg ra rb rc => simp only [statementOf, formOf, condJumpForm_memOperand]
  | load8Imm ra v | load16Imm ra v => simp [statementOf, formOf, loadForm, fits_toNat]
  | bnotI ra v => simp [statementOf, formOf, bnotForm, fits_toNat]
  | jmpImm v => simp [statementOf, formOf, jumpForm, fits_toNat]
  | ojmpImm ra v | zjmpImm ra v => simp [statementOf, formOf, condJumpForm, fits_toNat]
  | addRI ra rb v | subRI ra rb v | subIR ra rb v | bandRI ra rb v | borRI ra rb v | bxorRI ra rb v | mulRI ra rb v
  | divRI ra rb v | divIR ra rb v | slRI ra rb v | slIR ra rb v | lrsRI ra rb v | lrsIR ra rb v | arsRI ra rb v
  | arsIR ra rb v | lcsRI ra rb v | lcsIR ra rb v | gtRI ra rb v | eqRI ra rb v | ltRI ra rb v | gteRI ra rb v
  | lteRI ra rb v => simp [statementOf, formOf, three, fits_toNat]
  | slII ra v u | lrsII ra v u | arsII ra v u | lcsII ra v u => simp [statementOf, formOf, three, fits_toNat]
  | _ => rfl

theorem assemble_statementOf (symbols : List (String × Nat)) (i : Instr) :
    assemble symbols (statementOf i) = if i.wf then some i else none := by
  rw [assemble, formOf_statementOf]

/-- The assembler refuses a statement that names no instruction. -/
theorem assembleWord_eq_none {symbols : List (String × Nat)} {m : Mnemonic} {ops : List Operand}
    (h : formOf symbols m ops = none) : assembleWord symbols ⟨m, ops⟩ = none := by
  rw [assembleWord, assemble, h]
  rfl

section Wide
variable {a b : Label} {n k : Nat} {rr : Label → Label → Label → Instr}
  {ri ir : Option (Label → Label → BitVec 10 → Instr)} {ii : Option (Label → BitVec 10 → BitVec 6 → Instr)}

theorem three_wide_second (h : 1024 ≤ n) : three [.reg a, .num n, .reg b] rr ri ir ii = none := by
  cases ri <;> simp [three, fits_eq_none (w := 10) h]

theorem three_wide_first (h : 1024 ≤ n) : three [.num n, .reg a, .reg b] rr ri ir ii = none := by
  cases ir <;> simp [three, fits_eq_none (w := 10) h]

theorem three_wide_value (h : 1024 ≤ n) : three [.num n, .num k, .reg b] rr ri ir ii = none := by
  cases ii <;> simp [three, fits_eq_none (w := 10) h]

theorem three_wide_count (h : 64 ≤ k) : three [.num n, .num k, .reg b] rr ri ir ii = none := by
  cases ii <;> simp [three, fits_eq_none (w := 6) h]

variable {symbols : List (String × Nat)} {name : String} {imm : Label → BitVec 16 → Instr}
  {reg : Label → Label → Label → Instr}

theorem condJumpForm_wide (h : 65536 ≤ n) : condJumpForm symbols [.reg a, .memNum n] imm reg = none := by
  simp [condJumpForm, fits_eq_none (w := 16) h]

theorem condJumpForm_wide_symbol (h : 65536 ≤ n) (hs : symbols.lookup name = some n) :
    condJumpForm symbols [.reg a, .symbol name] imm reg = none := by
  simp [condJumpForm, symbolAddress, hs, fits_eq_none (w := 16) h]

end Wide
end Sys2Proof.Machine
end

section
/-! ## The statements about the assembler -/
namespace Sys2Proof.Machine

/-- Settles O58: the statement's form is the instruction, and the assembler then checks its labels. -/
theorem statementsAssemble : Obligations.StatementsAssemble := by
  intro symbols i
  refine ⟨assemble_statementOf symbols i, fun hwf => ?_⟩
  rw [assembleWord, assemble_statementOf, if_pos hwf]
  rfl

/-- Settles O59: every form asks of each of its immediates that it fits. -/
theorem wideImmediatesRejected : Obligations.WideImmediatesRejected := by
  intro symbols a b n k name
  simp only [List.forall_mem_cons, List.not_mem_nil, false_implies, implies_true, and_true]
  refine ⟨fun h => ⟨?_, ?_, ?_⟩, fun h => ?_, fun h => ?_, fun h => ⟨?_, ?_⟩, fun h => ⟨?_, fun hs => ?_⟩⟩
  · refine ⟨?_, ?_, ?_, ?_, ?_, ?_, ?_, ?_, ?_, ?_, ?_, ?_, ?_, ?_, ?_, ?_⟩ <;>
      exact assembleWord_eq_none (by simp only [formOf, three_wide_second h])
  · refine ⟨?_, ?_, ?_, ?_, ?_, ?_⟩ <;> exact assembleWord_eq_none (by simp only [formOf, three_wide_first h])
  · refine ⟨?_, ?_, ?_, ?_⟩ <;> exact assembleWord_eq_none (by simp only [formOf, three_wide_value h])
  · refine ⟨?_, ?_, ?_, ?_⟩ <;> exact assembleWord_eq_none (by simp only [formOf, three_wide_count h])
  · exact assembleWord_eq_none (by simp [formOf, loadForm, fits_eq_none (w := 8) h])
  · exact ⟨assembleWord_eq_none (by simp [formOf, loadForm, fits_eq_none (w := 16) h]),
      assembleWord_eq_none (by simp [formOf, bnotForm, fits_eq_none (w := 16) h])⟩
  · refine ⟨?_, ?_⟩ <;> exact ⟨assembleWord_eq_none (by simp only [formOf, condJumpForm_wide h]),
      fun hs => assembleWord_eq_none (by simp only [formOf, condJumpForm_wide_symbol h hs])⟩
  · exact assembleWord_eq_none (by simp [formOf, jumpForm, fits_eq_none (w := 22) h])
  · exact assembleWord_eq_none (by simp [formOf, jumpForm, symbolAddress, hs, fits_eq_none (w := 22) h])

end Sys2Proof.Machine
end

section
/-! ## BOR_RR, which has no word of its own (spec/30_encoding.md R65, D13) -/
namespace Sys2Proof
open Machine

theorem decode_ne_borRR (w : Word) (ra rb rc : Label) : decode w ≠ .ok (.borRR ra rb rc) := fun h => by
  have henc := (wf_and_encode_of_decode h).2
  rw [encode_eq_none_iff.2 ⟨ra, rb, rc, rfl⟩] at henc
  cases henc

/-- Under OPC206 = BOR_RR every other opcode decodes as by default. -/
theorem decodeOp_borRR_of_ne {w : Word} {op : Nat} (h : op ≠ 0x206) :
    decodeOp { settings with opc206 := .borRR } w op = decodeOp settings w op := by
  unfold decodeOp
  split
  case h_16 => exact absurd rfl h
  all_goals rfl

/-- Under OPC206 = BOR_RR opcode 0x206 is the row of BOR_RR (R65). -/
theorem decodeWith_borRR_at_206 {w : Word} (h : opcodeNumber w = 0x206) :
    decodeWith { settings with opc206 := .borRR } w = decodeREG3 settings w .borRR := by
  rw [decodeWith_eq, h]
  rfl

theorem decodeWith_borRR_of_ne {w : Word} (h : opcodeNumber w ≠ 0x206) :
    decodeWith { settings with opc206 := .borRR } w = decode w := by
  rw [decode, decodeWith_eq, decodeWith_eq, decodeOp_borRR_of_ne h]

/-- A word that decodes has the opcode of its instruction's row (R64). -/
theorem opcodeNumber_of_decode {w : Word} {i : Instr} (h : decode w = .ok i) : opcodeNumber w = i.opcode.toNat := by
  rw [← opField_toNat, Laws.OpcodeField.of_layout i w (wf_and_encode_of_decode h).2]

theorem opcodeNumber_wordThree {op : Nat} (h : op < 1024) (ra rb rc : Label) :
    opcodeNumber (wordThree op ra rb rc) = op := by
  rw [← opField_toNat, ← layThree_eq, opField_layThree, BitVec.toNat_ofNat, Nat.mod_eq_of_lt h]

/-- Under OPC206 = BOR_RR the words that decode to BOR_RR are those of its printed row. -/
theorem decodeWith_borRR_iff {w : Word} {ra rb rc : Label} :
    decodeWith { settings with opc206 := .borRR } w = .ok (.borRR ra rb rc) ↔
      Target ra ∧ w = wordThree 0x206 ra rb rc := by
  constructor
  · intro h
    by_cases hop : opcodeNumber w = 0x206
    · rw [decodeWith_borRR_at_206 hop] at h
      obtain ⟨a, b, c, ⟨⟩, ha, -, -, hw⟩ := decodeThree_ok.1 h
      have hfield : opField w = BitVec.ofNat 10 0x206 := BitVec.eq_of_toNat_eq ((opField_toNat w).trans hop)
      exact ⟨contains_target_iff.1 ha, hw.trans (by rw [hfield, layThree_eq])⟩
    · exact absurd (decodeWith_borRR_of_ne hop ▸ h) (decode_ne_borRR w ra rb rc)
  · rintro ⟨ha, rfl⟩
    rw [decodeWith_borRR_at_206 (opcodeNumber_wordThree (by omega) ra rb rc), ← layThree_eq]
    exact decodeThree_ok.2 ⟨ra, rb, rc, rfl, contains_target_iff.2 ha, rfl, rfl, by rw [opField_layThree]⟩

/-- Under OPC206 = BOR_RR no word decodes to BAND_RI. -/
theorem decodeWith_borRR_ne_bandRI (w : Word) (ra rb : Label) (v : BitVec 10) :
    decodeWith { settings with opc206 := .borRR } w ≠ .ok (.bandRI ra rb v) := fun h => by
  by_cases hop : opcodeNumber w = 0x206
  · rw [decodeWith_borRR_at_206 hop] at h
    obtain ⟨a, b, c, e, -⟩ := decodeThree_ok.1 h
    cases e
  · rw [decodeWith_borRR_of_ne hop] at h
    exact hop (opcodeNumber_of_decode h)

end Sys2Proof

namespace Sys2Proof.Machine

/-- Settles O9: OR acts on each bit alone; the word of the printed row is BAND_RI's by default. -/
theorem orOfRegistersWithoutDefaultWord : Obligations.OrOfRegistersWithoutDefaultWord := by
  intro ra rb rc v
  refine ⟨fun ht => ?_, fun w => decode_ne_borRR w ra rb rc, rfl, fun symbols => ?_, fun w => decodeWith_borRR_iff,
    fun w => decodeWith_borRR_ne_bandRI w ra rb v⟩
  case refine_1 =>
    exact computesBits_of_computes (computes_of_writeResult (fun _ => rfl) ht)
      fun s k _ => getLsbD_bitOr (operandsRR s rb rc) k
  case refine_2 =>
    show (assemble symbols (statementOf (.borRR ra rb rc))).bind encode = none
    rw [assemble_statementOf]
    split <;> rfl

end Sys2Proof.Machine
end

section
/-! ## More words, and the operations of spec/42_integer_ops.md as numbers -/
namespace Sys2Proof.Machine

theorem encode_of_layI8 {i : Instr} {op : Nat} {ra : Label} {v : BitVec 8}
    (h : encode i = some (layI8 (BitVec.ofNat 10 op) ra v)) : encode i = some (wordImm op ra v) :=
  h.trans (congrArg some (layI8_eq op ra v))

theorem encode_of_layI16 {i : Instr} {op : Nat} {ra : Label} {v : BitVec 16}
    (h : encode i = some (layI16 (BitVec.ofNat 10 op) ra v)) : encode i = some (wordImm op ra v) :=
  h.trans (congrArg some (layI16_eq op ra v))

theorem encode_of_layII {i : Instr} {op : Nat} {ra : Label} {v : BitVec 10} {u : BitVec 6}
    (h : encode i = some (layII (BitVec.ofNat 10 op) ra v u)) : encode i = some (wordII op ra v u) :=
  h.trans (congrArg some (layII_eq op ra v u))

theorem encode_of_layJ {i : Instr} {op : Nat} {v : BitVec 22}
    (h : encode i = some (layJ (BitVec.ofNat 10 op) v)) : encode i = some (wordJ op v) :=
  h.trans (congrArg some (layJ_eq op v))

theorem encode_of_layJR {i : Instr} {op : Nat} {rb rc : Label}
    (h : encode i = some (layJR (BitVec.ofNat 10 op) rb rc)) : encode i = some (wordJR op rb rc) :=
  h.trans (congrArg some (layJR_eq op rb rc))

theorem product_eq_ofNat (p : Pair) : product p = BitVec.ofNat 32 (p.1.toNat * p.2.toNat) :=
  BitVec.eq_of_toNat_eq (by simp [product])

/-- An immediate narrower than a word is not negative as an operand (R60). -/
theorem immOperand_toInt {n : Nat} (v : BitVec n) (h : n < 32) : (immOperand v).toInt = v.toNat := by
  have hlt : v.toNat < 2 ^ 31 := lt_of_lt_of_le v.isLt (Nat.pow_le_pow_right (by omega) (by omega))
  rw [BitVec.toInt_eq_toNat_of_lt (by rw [immOperand_toNat v (by omega)]; omega), immOperand_toNat v (by omega)]

theorem not_immOperand_eq_ofNat (v : BitVec 16) : ~~~(immOperand v) = BitVec.ofNat 32 (4294967295 - v.toNat) := by
  apply BitVec.eq_of_toNat_eq
  rw [BitVec.toNat_not, immOperand_toNat v (by omega), BitVec.toNat_ofNat, Nat.mod_eq_of_lt (by omega)]

/-! ### Reductions (R119 to R121) -/

theorem truth_reduceAnd (v : Word) : truth (reduceAnd v) = if v.toNat = 4294967295 then 1#32 else 0#32 := by
  simp [truth, reduceAnd, ← BitVec.toNat_inj]

theorem truth_reduceOr (v : Word) : truth (reduceOr v) = if v.toNat = 0 then 0#32 else 1#32 := by
  simp [truth, reduceOr, ← BitVec.toNat_inj]

/-- Bit `k` of a word, as a digit. -/
theorem digit_eq_getLsbD (v : Word) (k : Nat) : v.toNat / 2 ^ k % 2 = (v.getLsbD k).toNat := by
  rw [← BitVec.testBit_toNat, Nat.testBit_eq_decide_div_mod_eq]
  rcases Nat.mod_two_eq_zero_or_one (v.toNat / 2 ^ k) with h | h <;> simp [h]

theorem onesCount_eq_sum (v : Word) :
    onesCount v = ((List.range 32).map (fun k => v.toNat / 2 ^ k % 2)).sum := by
  have digits : ∀ ks : List Nat,
      ks.countP (fun k => v.getLsbD k) = (ks.map (fun k => v.toNat / 2 ^ k % 2)).sum := fun ks => by
    induction ks with
    | nil => rfl
    | cons k ks ih =>
      rw [List.countP_cons, List.map_cons, List.sum_cons, ih, digit_eq_getLsbD, Nat.add_comm]
      cases v.getLsbD k <;> rfl
  exact digits _

theorem truth_mod_two (n : Nat) : truth (decide (n % 2 = 1)) = BitVec.ofNat 32 (n % 2) := by
  rcases Nat.mod_two_eq_zero_or_one n with h | h <;> simp [truth, h]

theorem truth_reduceXor (v : Word) :
    truth (reduceXor v) = BitVec.ofNat 32 (((List.range 32).map (fun k => v.toNat / 2 ^ k % 2)).sum % 2) := by
  rw [reduceXor, truth_mod_two, onesCount_eq_sum]

/-! ### Division (R127) -/

theorem divideResult_of_ne {s : State} {ra : Label} {p : Pair} (h : p.2.toNat ≠ 0) :
    divideResult settings s ra p = writeResult s ra (BitVec.ofInt 32 (p.1.toInt.tdiv p.2.toInt)) := by
  have hne : p.2 ≠ 0#32 := fun e => h (congrArg BitVec.toNat e)
  simp [divideResult, hne, quotient]

/-- Below the sign bit the quotient is the floor, signed or not. -/
theorem quotient_eq_ofNat {a b : Word} (signed : Bool) (ha : a.toNat < 2147483648) (hb : b.toNat < 2147483648) :
    quotient signed (a, b) = BitVec.ofNat 32 (a.toNat / b.toNat) := by
  cases signed with
  | false => rfl
  | true =>
    have hia : a.toInt = a.toNat := BitVec.toInt_eq_toNat_of_lt (by omega)
    have hib : b.toInt = b.toNat := BitVec.toInt_eq_toNat_of_lt (by omega)
    rw [quotient, if_pos rfl, hia, hib, ← Int.ofNat_tdiv, BitVec.ofInt_natCast]

/-- An instruction that ends in `writeResult` completes and writes that value only. -/
theorem exec_writesOnly {i : Instr} {s : State} {ra : Label} {v : Word} (h : exec i s = writeResult s ra v)
    (ht : Target ra) : ∃ t, exec i s = .next t ∧ WritesOnly s t ra v :=
  ⟨(s.setReg ra v).advance, h, writesOnly_writeResult s v ht⟩

end Sys2Proof.Machine
end

section
/-! ## More statements about spec/42_integer_ops.md -/
namespace Sys2Proof.Machine

/-- Settles O2: the forms end in `writeResult` with the difference or the product of their operands. -/
theorem subtractAndMultiplyForms : Obligations.SubtractAndMultiplyForms := by
  intro ra rb rc imm10
  have imm : (immOperand imm10).toNat = imm10.toNat := immOperand_toNat imm10 (by omega)
  refine ⟨hasWordAndValue (encode_of_layThree rfl) rfl fun s => ?_,
    hasWordAndValue (encode_of_layThree rfl) rfl fun s => ?_, hasWordAndValue (encode_of_layRI rfl) rfl fun s => ?_⟩
  case refine_1 => exact congrArg (writeResult s ra) (difference_eq_ofInt (operandsRR s rb rc))
  case refine_2 => exact congrArg (writeResult s ra) (product_eq_ofNat (operandsRR s rb rc))
  case refine_3 => rw [← imm]; exact congrArg (writeResult s ra) (product_eq_ofNat (operandsRI s rb imm10))

/-- Settles O5: AND acts on each bit alone, and bits 31:10 of the immediate operand are zero. -/
theorem andWithImmediateKeepsLowBits : Obligations.AndWithImmediateKeepsLowBits := by
  intro ra rb imm10
  refine hasWordAndBits (encode_of_layRI rfl) rfl (fun _ => rfl) fun s k hk => ?_
  rw [← getLsbD_immOperand imm10 hk]
  exact getLsbD_bitAnd (operandsRI s rb imm10) k

/-- Settles O7: the complement of a number of 32 bits is its distance from the largest. -/
theorem notOfImmediateSetsHighHalf : Obligations.NotOfImmediateSetsHighHalf := fun ra imm16 =>
  hasWordAndValue (encode_of_layI16 rfl) rfl fun s => congrArg (writeResult s ra) (not_immOperand_eq_ofNat imm16)

/-- Settles O8: each form ends in `writeResult` with one bit, and its source field excludes %ZERO. -/
theorem reductionsToOneBit : Obligations.ReductionsToOneBit := by
  intro ra rc
  have range : (LabelRange.target.contains ra && LabelRange.notZero.contains rc) = true ↔ Target ra ∧ NotZero rc := by
    simp [LabelRange.contains]
  refine ⟨⟨encoded_of_encode (encode_of_layREG2 rfl) range, computes_of_writeResult fun s => ?_⟩,
    ⟨encoded_of_encode (encode_of_layREG2 rfl) range, computes_of_writeResult fun s => ?_⟩,
    encoded_of_encode (encode_of_layREG2 rfl) range, computes_of_writeResult fun s => ?_⟩
  case refine_1 => exact congrArg (writeResult s ra) (truth_reduceAnd (s.reg rc))
  case refine_2 => exact congrArg (writeResult s ra) (truth_reduceOr (s.reg rc))
  case refine_3 => exact congrArg (writeResult s ra) (truth_reduceXor (s.reg rc))

/-- Settles O10: each form ends in `divideResult`, and an immediate operand is not negative. -/
theorem divideTruncatesTowardZero : Obligations.DivideTruncatesTowardZero := by
  intro ra rb rc imm10
  have imm : (immOperand imm10).toNat = imm10.toNat := immOperand_toNat imm10 (by omega)
  have immInt : (immOperand imm10).toInt = imm10.toNat := immOperand_toInt imm10 (by omega)
  refine ⟨encoded_of_encode (encode_of_layThree rfl) contains_target_iff,
    encoded_of_encode (encode_of_layRI rfl) contains_target_iff,
    encoded_of_encode (encode_of_layRI rfl) contains_target_iff, fun ht s => ⟨fun h => ?_, fun h => ?_, fun h => ?_⟩⟩
  case refine_1 => exact exec_writesOnly (divideResult_of_ne (p := operandsRR s rb rc) h) ht
  case refine_2 =>
    rw [← immInt]
    exact exec_writesOnly (divideResult_of_ne (p := operandsRI s rb imm10) (imm.trans_ne h)) ht
  case refine_3 =>
    rw [← immInt]
    exact exec_writesOnly (divideResult_of_ne (p := operandsIR s rb imm10) h) ht

/-- Settles O11: the divisor of each form is the second of its operands. -/
theorem divideByZeroStops : Obligations.DivideByZeroStops := fun ra rb rc imm10 s =>
  ⟨fun h => divideResult_zero (ra := ra) (p := operandsRR s rb rc) (BitVec.eq_of_toNat_eq h),
    divideResult_zero (ra := ra) (p := operandsRR s rb Label.zero) rfl,
    divideResult_zero (ra := ra) (p := operandsRI s rb 0#10) rfl,
    fun h => divideResult_zero (ra := ra) (p := operandsIR s rb imm10) (BitVec.eq_of_toNat_eq h)⟩

/-- Settles O12: below the sign bit the settings of DIV_SIGNED agree; DIV0 = any writes its free value. -/
theorem divideSettingsAgreeBelowSignBit : Obligations.DivideSettingsAgreeBelowSignBit := by
  intro c s ra a b
  refine ⟨fun ha hb hne => ?_, fun hany => ⟨Config.divByZero a, ?_⟩⟩
  · have hb0 : b ≠ 0#32 := fun e => hne (congrArg BitVec.toNat e)
    rw [divideResult, if_neg hb0, quotient_eq_ofNat _ ha hb]
  · rw [divideResult, if_pos rfl, hany]

end Sys2Proof.Machine
end

section
/-! ## The shifts of spec/43_shift_ops.md, as numbers and bit by bit -/
namespace Sys2Proof.Machine

theorem slValue_eq_ofNat (p : Pair) : slValue settings p = BitVec.ofNat 32 (p.1.toNat * 2 ^ p.2.toNat) :=
  BitVec.eq_of_toNat_eq ((shiftLeft_toNat p.1 p.2.toNat).trans (BitVec.toNat_ofNat _ _).symm)

theorem lrsValue_eq_ofNat (p : Pair) : lrsValue settings p = BitVec.ofNat 32 (p.1.toNat / 2 ^ p.2.toNat) := by
  have h : (lrsValue settings p).toNat = p.1.toNat / 2 ^ p.2.toNat := shiftRight_toNat p.1 p.2.toNat
  rw [← h, BitVec.ofNat_toNat, BitVec.setWidth_eq]

theorem arsValue_eq_ofInt (p : Pair) : arsValue settings p = BitVec.ofInt 32 (Int.fdiv p.1.toInt (2 ^ p.2.toNat)) := by
  have h : (arsValue settings p).toInt = p.1.toInt / 2 ^ p.2.toNat := shiftRightArith_toInt p.1 p.2.toNat
  rw [Int.fdiv_eq_ediv_of_nonneg _ (by positivity), ← h, BitVec.ofInt_toInt]

/-- ARS of a value with sign bit 0 is LRS of it (R158). -/
theorem arsValue_eq_lrsValue {p : Pair} (h : p.1.toNat < 2147483648) : arsValue settings p = lrsValue settings p := by
  rw [arsValue_eq_ofInt, lrsValue_eq_ofNat, Int.fdiv_eq_ediv_of_nonneg _ (by positivity),
    BitVec.toInt_eq_toNat_of_lt (by omega), ← BitVec.ofInt_natCast]
  norm_cast

/-- The immediate that an `_IR` or `_II` form shifts has sign bit 0. -/
theorem immOperand_lt (v : BitVec 10) : (immOperand v).toNat < 2147483648 := by
  rw [immOperand_toNat v (by omega)]
  omega

/-- Bit `k` of a word rotated left by `n` (R141). -/
theorem getLsbD_lcsValue (p : Pair) {k : Nat} (hk : k < 32) :
    (lcsValue settings p).getLsbD k = p.1.getLsbD ((k + 32 - p.2.toNat % 32) % 32) := by
  have hn : p.2.toNat % 32 < 32 := Nat.mod_lt _ (by omega)
  show (p.1.rotateLeft (p.2.toNat % 32)).getLsbD k = _
  rw [BitVec.getLsbD_rotateLeft, Nat.mod_eq_of_lt hn]
  by_cases h : k < p.2.toNat % 32
  · rw [decide_eq_true h, cond_true]
    congr 1
    omega
  · rw [decide_eq_false h, cond_false, decide_eq_true hk, Bool.true_and]
    congr 1
    omega

/-- The bits of an immediate operand below its 32 are the immediate's. -/
theorem getLsbD_immOperand_eq (v : BitVec 10) {k : Nat} (hk : k < 32) : (immOperand v).getLsbD k = v.getLsbD k := by
  rw [getLsbD_immOperand v hk]
  by_cases h : k < 10
  · simp [h]
  · simp [h, BitVec.getLsbD_of_ge v k (by omega)]

theorem shiftCount_of_lt (a : ShiftAmount) {n : Word} (h : n.toNat < 32) : shiftCount a n = n.toNat := by
  cases a with
  | unmasked => rfl
  | mod32 => exact Nat.mod_eq_of_lt h

theorem shiftCount_mod (a : ShiftAmount) (n : Word) : shiftCount a n % 32 = n.toNat % 32 := by
  cases a with
  | unmasked => rfl
  | mod32 => exact Nat.mod_mod _ _

end Sys2Proof.Machine
end

section
/-! ## The statements about spec/43_shift_ops.md -/
namespace Sys2Proof.Machine

/-- Settles O13: the four forms end in `writeResult` with SL of their operands. -/
theorem shiftLeftMultiplies : Obligations.ShiftLeftMultiplies := by
  intro ra rb rc imm10 immB
  have imm : (immOperand imm10).toNat = imm10.toNat := immOperand_toNat imm10 (by omega)
  have count : (immOperand immB).toNat = immB.toNat := immOperand_toNat immB (by omega)
  refine ⟨hasWordAndValue (encode_of_layThree rfl) rfl fun s => ?_,
    hasWordAndValue (encode_of_layRI rfl) rfl fun s => ?_, hasWordAndValue (encode_of_layRI rfl) rfl fun s => ?_,
    hasWordAndValue (encode_of_layII rfl) rfl fun s => ?_⟩
  case refine_1 => exact congrArg (writeResult s ra) (slValue_eq_ofNat (operandsRR s rb rc))
  case refine_2 => rw [← imm]; exact congrArg (writeResult s ra) (slValue_eq_ofNat (operandsRI s rb imm10))
  case refine_3 => rw [← imm]; exact congrArg (writeResult s ra) (slValue_eq_ofNat (operandsIR s rb imm10))
  case refine_4 => rw [← imm, ← count]; exact congrArg (writeResult s ra) (slValue_eq_ofNat (operandsII imm10 immB))

/-- Settles O14: the four forms end in `writeResult` with LRS of their operands. -/
theorem logicalShiftRightDivides : Obligations.LogicalShiftRightDivides := by
  intro ra rb rc imm10 immB
  have imm : (immOperand imm10).toNat = imm10.toNat := immOperand_toNat imm10 (by omega)
  have count : (immOperand immB).toNat = immB.toNat := immOperand_toNat immB (by omega)
  refine ⟨hasWordAndValue (encode_of_layThree rfl) rfl fun s => ?_,
    hasWordAndValue (encode_of_layRI rfl) rfl fun s => ?_, hasWordAndValue (encode_of_layRI rfl) rfl fun s => ?_,
    hasWordAndValue (encode_of_layII rfl) rfl fun s => ?_⟩
  case refine_1 => exact congrArg (writeResult s ra) (lrsValue_eq_ofNat (operandsRR s rb rc))
  case refine_2 => rw [← imm]; exact congrArg (writeResult s ra) (lrsValue_eq_ofNat (operandsRI s rb imm10))
  case refine_3 => rw [← imm]; exact congrArg (writeResult s ra) (lrsValue_eq_ofNat (operandsIR s rb imm10))
  case refine_4 => rw [← imm, ← count]; exact congrArg (writeResult s ra) (lrsValue_eq_ofNat (operandsII imm10 immB))

/-- Settles O18: an immediate shifted has sign bit 0. -/
theorem arithmeticShiftOfImmediateIsLogical : Obligations.ArithmeticShiftOfImmediateIsLogical :=
  fun ra rb imm10 immB s =>
    ⟨congrArg (writeResult s ra) (arsValue_eq_lrsValue (p := operandsIR s rb imm10) (immOperand_lt imm10)),
      congrArg (writeResult s ra) (arsValue_eq_lrsValue (p := operandsII imm10 immB) (immOperand_lt imm10))⟩

/-- Settles O15: the four forms end in `writeResult` with ARS of their operands, which for an immediate value is
LRS. -/
theorem arithmeticShiftRightFloors : Obligations.ArithmeticShiftRightFloors := by
  intro ra rb rc imm10 immB
  have imm : (immOperand imm10).toNat = imm10.toNat := immOperand_toNat imm10 (by omega)
  have count : (immOperand immB).toNat = immB.toNat := immOperand_toNat immB (by omega)
  refine ⟨hasWordAndValue (encode_of_layThree rfl) rfl fun s => ?_,
    hasWordAndValue (encode_of_layRI rfl) rfl fun s => ?_, hasWordAndValue (encode_of_layRI rfl) rfl fun s => ?_,
    hasWordAndValue (encode_of_layII rfl) rfl fun s => ?_⟩
  case refine_1 => exact congrArg (writeResult s ra) (arsValue_eq_ofInt (operandsRR s rb rc))
  case refine_2 => rw [← imm]; exact congrArg (writeResult s ra) (arsValue_eq_ofInt (operandsRI s rb imm10))
  case refine_3 =>
    rw [← imm, (arithmeticShiftOfImmediateIsLogical ra rb imm10 immB s).1]
    exact congrArg (writeResult s ra) (lrsValue_eq_ofNat (operandsIR s rb imm10))
  case refine_4 =>
    rw [← imm, ← count, (arithmeticShiftOfImmediateIsLogical ra rb imm10 immB s).2]
    exact congrArg (writeResult s ra) (lrsValue_eq_ofNat (operandsII imm10 immB))

/-- Settles O16: the four forms end in `writeResult` with LCS of their operands. -/
theorem circularShiftRotatesBits : Obligations.CircularShiftRotatesBits := by
  intro ra rb rc imm10 immB
  have imm : (immOperand imm10).toNat = imm10.toNat := immOperand_toNat imm10 (by omega)
  have count : (immOperand immB).toNat = immB.toNat := immOperand_toNat immB (by omega)
  refine ⟨hasWordAndBits (encode_of_layThree rfl) rfl (fun _ => rfl) fun s k hk => ?_,
    hasWordAndBits (encode_of_layRI rfl) rfl (fun _ => rfl) fun s k hk => ?_,
    hasWordAndBits (encode_of_layRI rfl) rfl (fun _ => rfl) fun s k hk => ?_,
    hasWordAndBits (encode_of_layII rfl) rfl (fun _ => rfl) fun s k hk => ?_⟩
  case refine_1 => exact getLsbD_lcsValue (operandsRR s rb rc) hk
  case refine_2 => rw [← imm]; exact getLsbD_lcsValue (operandsRI s rb imm10) hk
  case refine_3 =>
    rw [← getLsbD_immOperand_eq imm10 (Nat.mod_lt _ (by omega))]
    exact getLsbD_lcsValue (operandsIR s rb imm10) hk
  case refine_4 =>
    rw [← count, ← getLsbD_immOperand_eq imm10 (Nat.mod_lt _ (by omega))]
    exact getLsbD_lcsValue (operandsII imm10 immB) hk

/-- Settles O17: a count below 32 is its own remainder, and LCS takes the remainder of any count. -/
theorem shiftSettingsAgreeBelowWidth : Obligations.ShiftSettingsAgreeBelowWidth := by
  intro c d v n
  refine ⟨fun h => ?_, ?_⟩
  · simp only [slValue, lrsValue, arsValue, shiftCount_of_lt _ h, and_self]
  · simp only [lcsValue, rotateLeft, shiftCount_mod]

end Sys2Proof.Machine
end

section
/-! ## More statements about spec/44_branch_ops.md -/
namespace Sys2Proof.Machine

/-! Under CMP_SIGNED = true the order compares write 1 exactly when the signed numbers are so ordered (R176). -/

theorem truth_isGreater (p : Pair) :
    truth (isGreater settings.cmpSigned p) = if p.1.toInt > p.2.toInt then 1#32 else 0#32 := by
  simp [truth, isGreater, orderValue]

theorem truth_isLess (p : Pair) :
    truth (isLess settings.cmpSigned p) = if p.1.toInt < p.2.toInt then 1#32 else 0#32 := by
  simp [truth, isLess, orderValue]

theorem truth_isGreaterEqual (p : Pair) :
    truth (isGreaterEqual settings.cmpSigned p) = if p.1.toInt ≥ p.2.toInt then 1#32 else 0#32 := by
  simp [truth, isGreaterEqual, orderValue]

theorem truth_isLessEqual (p : Pair) :
    truth (isLessEqual settings.cmpSigned p) = if p.1.toInt ≤ p.2.toInt then 1#32 else 0#32 := by
  simp [truth, isLessEqual, orderValue]

/-- Settles O19: each form ends in `writeResult` with its relation of the two registers. -/
theorem orderComparesOfRegisters : Obligations.OrderComparesOfRegisters := fun ra rb rc =>
  ⟨hasWordAndValue (encode_of_layThree rfl) rfl fun s =>
      congrArg (writeResult s ra) (truth_isGreater (operandsRR s rb rc)),
    hasWordAndValue (encode_of_layThree rfl) rfl fun s =>
      congrArg (writeResult s ra) (truth_isLess (operandsRR s rb rc)),
    hasWordAndValue (encode_of_layThree rfl) rfl fun s =>
      congrArg (writeResult s ra) (truth_isGreaterEqual (operandsRR s rb rc)),
    hasWordAndValue (encode_of_layThree rfl) rfl fun s =>
      congrArg (writeResult s ra) (truth_isLessEqual (operandsRR s rb rc))⟩

/-- Settles O20: each form ends in `writeResult` with its relation of the register and the immediate, which is not
negative. -/
theorem orderComparesWithImmediate : Obligations.OrderComparesWithImmediate := by
  intro ra rb imm10
  rw [← immOperand_toInt imm10 (by omega)]
  exact ⟨hasWordAndValue (encode_of_layRI rfl) rfl fun s =>
      congrArg (writeResult s ra) (truth_isGreater (operandsRI s rb imm10)),
    hasWordAndValue (encode_of_layRI rfl) rfl fun s =>
      congrArg (writeResult s ra) (truth_isLess (operandsRI s rb imm10)),
    hasWordAndValue (encode_of_layRI rfl) rfl fun s =>
      congrArg (writeResult s ra) (truth_isGreaterEqual (operandsRI s rb imm10)),
    hasWordAndValue (encode_of_layRI rfl) rfl fun s =>
      congrArg (writeResult s ra) (truth_isLessEqual (operandsRI s rb imm10))⟩

theorem toNat_ite_one_zero (c : Prop) [Decidable c] : (if c then 1#32 else 0#32).toNat = if c then 1 else 0 := by
  split <;> rfl

/-- Settles O22: the relations of two signed numbers, of which equality is that of the words. -/
theorem compareRelationsConsistent : Obligations.CompareRelationsConsistent := by
  intro ra rb rc s ht
  refine ⟨_, _, _, _, _, rfl, rfl, rfl, rfl, rfl, ?_⟩
  simp only [reg_writeResult_same s ra _ ht.1 ht.2, truth_isGreater, truth_isEqual, truth_isLess, truth_isGreaterEqual,
    truth_isLessEqual, toNat_ite_one_zero, BitVec.toNat_inj, ← BitVec.toInt_inj]
  rcases lt_trichotomy (operandsRR s rb rc).1.toInt (operandsRR s rb rc).2.toInt with h | h | h
  · simp [h, h.not_gt, h.ne, h.le, h.not_ge]
  · simp [h]
  · simp [h, h.not_gt, h.ne', h.le, h.not_ge]

end Sys2Proof.Machine
end

section
/-! ## The state: registers, the effective address, MOVE and the immediate loads -/
namespace Sys2Proof.Machine

theorem effectiveAddress_eq_ofNat (s : State) (rb rc : Label) :
    effectiveAddress s rb rc = BitVec.ofNat 32 ((s.reg rb).toNat + (s.reg rc).toNat) :=
  sum_eq_ofNat (operandsRR s rb rc)

theorem effectiveAddress_zero (s : State) (rb : Label) : effectiveAddress s rb Label.zero = s.reg rb :=
  BitVec.add_zero _

/-- Settles O26: with base %PC the base is the instruction's own address. -/
theorem effectiveAddressWraps : Obligations.EffectiveAddressWraps := fun s rb rc =>
  ⟨effectiveAddress_eq_ofNat s rb rc, effectiveAddress_zero s rb, effectiveAddress_eq_ofNat s Label.pc rc⟩

/-- Settles O27: the laws of reading a register after a write, for every label. -/
theorem registerReadAfterWrite : Obligations.RegisterReadAfterWrite := fun s l k v =>
  ⟨reg_zero s, reg_pc s, fun h => reg_setReg_same s l v h.1 h.2, reg_setReg_ne s l k v, setReg_not_target s l v⟩

/-- Settles O28: MOVE ends in `writeResult` with its source, which for %ZERO is 0 and for %PC is `pc`. -/
theorem moveCopiesRegister : Obligations.MoveCopiesRegister := fun _ _ =>
  ⟨hasWordAndValue (encode_of_layREG2 rfl) rfl fun _ => rfl,
    fun h => ⟨computes_of_writeResult (fun _ => rfl) h, computes_of_writeResult (fun _ => rfl) h⟩⟩

/-- Writing to a register what it holds changes nothing. -/
theorem setReg_reg (s : State) {l : Label} (h : Target l) : s.setReg l (s.reg l) = s := by
  refine state_ext ?_ rfl rfl
  simp [writeGpr, h.1, h.2, reg_gpr s l h.1 h.2]

/-- Settles O29: the register is written with what it holds. -/
theorem moveOntoItselfOnlyAdvances : Obligations.MoveOntoItselfOnlyAdvances := fun _ s h =>
  congrArg (fun t : State => (.next t.advance : Result)) (setReg_reg s h)

theorem loadedValue_eq_ofNat {n : Nat} (v : BitVec n) : loadedValue v = BitVec.ofNat 32 v.toNat :=
  (BitVec.ofNat_toNat 32 v).symm

/-- Settles O23: both forms end in `writeResult` with the immediate, widened with zeros. -/
theorem immediateLoads : Obligations.ImmediateLoads := fun ra imm8 imm16 =>
  ⟨hasWordAndValue (encode_of_layI8 rfl) rfl fun s => congrArg (writeResult s ra) (loadedValue_eq_ofNat imm8),
    hasWordAndValue (encode_of_layI16 rfl) rfl fun s => congrArg (writeResult s ra) (loadedValue_eq_ofNat imm16)⟩

end Sys2Proof.Machine
end

section
/-! ## The jumps (spec/45_jump_ops.md) -/
namespace Sys2Proof.Machine

/-- Setting `pc` changes nothing else. -/
theorem jumpsOnly_setPc (s : State) (target : Word) : JumpsOnly s (s.setPc target) target :=
  ⟨rfl, fun l h => reg_setPc s target l h, rfl, fun _ => rfl⟩

/-- A conditional jump completes, at its target or at the next instruction, and changes `pc` only. -/
theorem jumpIf_jumpsOnly {i : Instr} {s : State} {c : Prop} [Decidable c] {b : Bool} {x target : Word}
    (h : exec i s = jumpIf s b x) (hb : b = decide c) (hx : x = target) :
    ∃ t, exec i s = .next t ∧ JumpsOnly s t (if c then target else s.pc + 4#32) := by
  subst hb hx
  refine ⟨s.setPc (if c then x else s.pc + 4#32), ?_, jumpsOnly_setPc s _⟩
  by_cases hc : c
  · rw [h, decide_eq_true hc, if_pos hc]
    rfl
  · rw [h, decide_eq_false hc, if_neg hc]
    rfl

theorem isOne_eq (v : Word) : isOne v = decide (v.toNat = 1) := decide_eq_decide.2 BitVec.toNat_inj.symm

theorem isZero_eq (v : Word) : isZero v = decide (v.toNat = 0) := decide_eq_decide.2 BitVec.toNat_inj.symm

/-- The ranges of an address of two registers (R62). -/
theorem contains_address_iff {rb rc : Label} :
    (LabelRange.notZero.contains rb && LabelRange.notPc.contains rc) = true ↔ NotZero rb ∧ NotPc rc := by
  simp [LabelRange.contains]

/-- Settles O30: a jump to the number or to the sum. -/
theorem unconditionalJumps : Obligations.UnconditionalJumps := by
  refine fun rb rc imm22 => ⟨encoded_of_encode (encode_of_layJ rfl) (iff_true_intro rfl),
    encoded_of_encode (encode_of_layJR rfl) contains_address_iff, fun s => ⟨?_, ?_⟩⟩
  · rw [← immOperand_eq_ofNat]
    exact ⟨_, rfl, jumpsOnly_setPc s _⟩
  · rw [← effectiveAddress_eq_ofNat]
    exact ⟨_, rfl, jumpsOnly_setPc s _⟩

/-- Settles O31: both forms end in `jumpIf` on the whole register being 1. -/
theorem jumpsWhenOne : Obligations.JumpsWhenOne := fun ra rb rc imm16 =>
  ⟨encoded_of_encode (encode_of_layI16 rfl) (iff_true_intro rfl),
    encoded_of_encode (encode_of_layThree rfl) contains_address_iff, fun s =>
    ⟨jumpIf_jumpsOnly rfl (isOne_eq (s.reg ra)) (immOperand_eq_ofNat imm16),
      jumpIf_jumpsOnly rfl (isOne_eq (s.reg ra)) (effectiveAddress_eq_ofNat s rb rc)⟩⟩

/-- Settles O32: both forms end in `jumpIf` on the whole register being 0. -/
theorem jumpsWhenZero : Obligations.JumpsWhenZero := fun ra rb rc imm16 =>
  ⟨encoded_of_encode (encode_of_layI16 rfl) (iff_true_intro rfl),
    encoded_of_encode (encode_of_layThree rfl) contains_address_iff, fun s =>
    ⟨jumpIf_jumpsOnly rfl (isZero_eq (s.reg ra)) (immOperand_eq_ofNat imm16),
      jumpIf_jumpsOnly rfl (isZero_eq (s.reg ra)) (effectiveAddress_eq_ofNat s rb rc)⟩⟩

end Sys2Proof.Machine
end

section
/-! ## What every instruction keeps -/
namespace Sys2Proof.Machine

/-- A decoded instruction has its target in range (R62, R63). -/
theorem target_of_decode {w : Word} {i : Instr} {ra : Label} (h : decode w = .ok i) (ht : targetOf i = some ra) :
    Target ra := (lenientRow_decodeOp w _).2 i ra ((lenientRow_decodeOp w _).1 i h) ht

/-- Where an instruction that answers a next state leaves `pc`. -/
theorem pc_of_exec {i : Instr} {s t : State} (h : exec i s = .next t) :
    t.pc = (takenTarget s i).getD (s.pc + 4#32) := by
  rcases exec_next_cases h with ⟨-, -, hnone, ra, v, -, rfl⟩ | ⟨-, -, hnone, -, m, rb, rc, n, rfl, -⟩ | ⟨-, -, -, rfl⟩
  · rw [hnone]
    rfl
  · rw [hnone]
    rfl
  · rfl

theorem takenTarget_of_not_jump {i : Instr} (s : State) (h : isJump i = false) : takenTarget s i = none := by
  cases i with
  | jmpImm _ | jmpReg _ _ | ojmpImm _ _ | ojmpReg _ _ _ | zjmpImm _ _ | zjmpReg _ _ _ => cases h
  | _ => rfl

/-- Settles O33: what is no jump has no target to go to, and a target register is no %PC. -/
theorem onlyJumpsAssignPc : Obligations.OnlyJumpsAssignPc := by
  refine ⟨fun i s t hi h => ?_, fun w i h ht => ?_⟩
  · rw [pc_of_exec h, takenTarget_of_not_jump s hi]
    rfl
  · exact absurd (target_of_decode h ht).2 (by decide)

/-- Settles O34: an instruction wrote its target, wrote its bytes of memory, or jumped. -/
theorem frameOfEveryInstruction : Obligations.FrameOfEveryInstruction := by
  intro i s t h
  rcases exec_next_cases h with ⟨-, -, -, ra, v, hra, rfl⟩ |
    ⟨-, hstore, -, -, m, rb, rc, n, rfl, hmap, -, hacc, hbytes⟩ | ⟨-, -, -, rfl⟩
  case inl =>
    refine ⟨fun l hpc hl => ?_, fun _ => rfl, rfl, fun _ _ _ _ _ _ => rfl⟩
    exact reg_writeResult_ne s ra l v (by rintro rfl; exact hl hra) hpc
  case inr.inl =>
    refine ⟨fun l hpc _ => reg_advance _ l hpc, fun hi => ?_, hmap, fun rb' rc' n' hacc' a ha => ?_⟩
    · rw [hstore] at hi
      cases hi
    · rw [hacc] at hacc'
      cases hacc'
      exact hbytes a ha
  case inr.inr => exact ⟨fun l hpc _ => reg_setPc s _ l hpc, fun _ => rfl, rfl, fun _ _ _ _ _ _ => rfl⟩

end Sys2Proof.Machine
end

section
/-! ## Memory: what a read gives after a write of 32 or 16 bits (spec/20_memory.md R33, R34, R43) -/
namespace Sys2Proof.Machine
namespace Memory

/-- The addresses listed rise, as in the canonical form; a write keeps this whatever is backed. -/
def Rising (m : Memory) : Prop := m.cells.Pairwise (fun p q => p.1 < q.1)

theorem rising_of_wf {m : Memory} (h : m.wf = true) : m.Rising := by
  obtain ⟨-, hcells, -⟩ := (wf_iff m).1 h
  exact hcells

theorem rising_write8 {m : Memory} (h : m.Rising) (a : Word) (v : BitVec 8) : (m.write8 a v).Rising :=
  pairwise_storeCell _ _ _ h

/-- Read after write, at any two 32-bit addresses. -/
theorem read8_write8 {m : Memory} (h : m.Rising) (a b : Word) (v : BitVec 8) :
    (m.write8 a v).read8 b = if b = a then v else m.read8 b := by
  simp only [← BitVec.toNat_inj (x := b)]
  exact lookupCell_storeCell a.toNat b.toNat v m.cells h

/-- Byte `k` of a word written in little-endian order (R33). -/
theorem read8_write32_little {m : Memory} (h : m.Rising) (a v : Word) {k : Nat} (hk : k < 4) :
    (write32 .little m a v).read8 (a + BitVec.ofNat 32 k) = BitVec.ofNat 8 (v.toNat / 256 ^ k) := by
  rw [← extractLsb'_byte]
  have h1 := rising_write8 h a (v.extractLsb' 0 8)
  have h2 := rising_write8 h1 (a + 1#32) (v.extractLsb' 8 8)
  have h3 := rising_write8 h2 (a + 2#32) (v.extractLsb' 16 8)
  rw [write32, read8_write8 h3, read8_write8 h2, read8_write8 h1, read8_write8 h]
  interval_cases k <;> simp

/-- Byte `k` of a word written in big-endian order (D4). -/
theorem read8_write32_big {m : Memory} (h : m.Rising) (a v : Word) {k : Nat} (hk : k < 4) :
    (write32 .big m a v).read8 (a + BitVec.ofNat 32 k) = BitVec.ofNat 8 (v.toNat / 256 ^ (3 - k)) := by
  rw [← extractLsb'_byte]
  have h1 := rising_write8 h a (v.extractLsb' 24 8)
  have h2 := rising_write8 h1 (a + 1#32) (v.extractLsb' 16 8)
  have h3 := rising_write8 h2 (a + 2#32) (v.extractLsb' 8 8)
  rw [write32, read8_write8 h3, read8_write8 h2, read8_write8 h1, read8_write8 h]
  interval_cases k <;> simp

/-- Byte `k` of a halfword written (R33). -/
theorem read8_write16_little {m : Memory} (h : m.Rising) (a : Word) (v : BitVec 16) {k : Nat} (hk : k < 2) :
    (write16 .little m a v).read8 (a + BitVec.ofNat 32 k) = v.extractLsb' (8 * k) 8 := by
  have h1 := rising_write8 h a (v.extractLsb' 0 8)
  rw [write16, read8_write8 h1, read8_write8 h]
  interval_cases k <;> simp

/-- Two neighbouring bytes of a word are a halfword of it. -/
theorem append_bytes (n k : Nat) :
    BitVec.ofNat 8 (n / 256 ^ (k + 1)) ++ BitVec.ofNat 8 (n / 256 ^ k) = BitVec.ofNat 16 (n / 256 ^ k) := by
  apply BitVec.eq_of_toNat_eq
  rw [toNat_append_add, BitVec.toNat_ofNat, BitVec.toNat_ofNat, BitVec.toNat_ofNat, Nat.pow_succ,
    ← Nat.div_div_eq_div_mul]
  omega

/-- The word read back where it was written (R37, R39). -/
theorem read32_write32 {m : Memory} (h : m.Rising) (a v : Word) : read32 .little (write32 .little m a v) a = v := by
  have byte (k : Nat) (hk : k < 4) :
      (write32 .little m a v).read8 (a + BitVec.ofNat 32 k) = v.extractLsb' (8 * k) 8 := by
    rw [read8_write32_little h a v hk, extractLsb'_byte]
  have h0 := byte 0 (by omega)
  rw [BitVec.add_zero] at h0
  rw [read32, h0, byte 1 (by omega), byte 2 (by omega), byte 3 (by omega), wordOfBytes_little]

/-- The halfword read back where it was written. -/
theorem read16_write16 {m : Memory} (h : m.Rising) (a : Word) (v : BitVec 16) :
    read16 .little (write16 .little m a v) a = v := by
  have h0 := read8_write16_little h a v (k := 0) (by omega)
  rw [BitVec.add_zero] at h0
  rw [read16, h0, read8_write16_little h a v (k := 1) (by omega)]
  apply BitVec.eq_of_toNat_eq
  have := v.isLt
  simp only [toNat_append_add, BitVec.extractLsb'_toNat, Nat.shiftRight_eq_div_pow]
  omega

/-! ### Numbers in memory -/

theorem read16_toNat (m : Memory) (a : Word) :
    (read16 .little m a).toNat = (m.read8 a).toNat + 256 * (m.read8 (a + 1#32)).toNat := by
  rw [read16, toNat_append_add]
  omega

theorem read32_toNat (m : Memory) (a : Word) :
    (read32 .little m a).toNat = (m.read8 a).toNat + 256 * ((m.read8 (a + 1#32)).toNat +
      256 * ((m.read8 (a + 2#32)).toNat + 256 * (m.read8 (a + 3#32)).toNat)) := by
  rw [read32, wordOfBytes, toNat_append_add, toNat_append_add, toNat_append_add]
  omega

/-- The bytes of an aligned access, at their addresses as numbers (R35). -/
theorem byte_add {m : Memory} {a : Word} {n i : Nat} (hn : n = 1 ∨ n = 2 ∨ n = 4) (h : a.toNat % n = 0) (hi : i < n) :
    m.byte (a.toNat + i) = m.read8 (a + BitVec.ofNat 32 i) := congrArg m.byte (aligned_add_toNat hn h hi).symm

end Memory
open Memory

theorem littleEndian_one (s : State) (a : Word) : littleEndian s a 1 = (s.mem.read8 a).toNat := rfl

theorem littleEndian_two {s : State} {a : Word} (h : a.toNat % 2 = 0) :
    littleEndian s a 2 = (read16 .little s.mem a).toNat := by
  have b1 := byte_add (m := s.mem) (n := 2) (i := 1) (by omega) h (by omega)
  rw [read16_toNat, ← b1]
  rfl

theorem littleEndian_four {s : State} {a : Word} (h : a.toNat % 4 = 0) :
    littleEndian s a 4 = (read32 .little s.mem a).toNat := by
  have b1 := byte_add (m := s.mem) (n := 4) (i := 1) (by omega) h (by omega)
  have b2 := byte_add (m := s.mem) (n := 4) (i := 2) (by omega) h (by omega)
  have b3 := byte_add (m := s.mem) (n := 4) (i := 3) (by omega) h (by omega)
  rw [read32_toNat, ← b1, ← b2, ← b3]
  rfl

/-- Settles O50: byte by byte, then two neighbouring bytes at a time. -/
theorem mixedWidthReads : Obligations.MixedWidthReads := by
  intro m a v hwf
  have h := rising_of_wf hwf
  have little (k : Nat) (hk : k < 4) := read8_write32_little h a v hk
  have big (k : Nat) (hk : k < 4) := read8_write32_big h a v hk
  have next : a + 2#32 + 1#32 = a + 3#32 := BitVec.add_assoc a 2#32 1#32
  refine ⟨little, ?_, ?_, big, ?_, ?_⟩
  case refine_1 =>
    have low := little 0 (by omega)
    rw [BitVec.add_zero] at low
    rw [read16, low, little 1 (by omega), append_bytes, Nat.pow_zero, Nat.div_one]
  case refine_2 =>
    rw [read16, next, little 2 (by omega), little 3 (by omega), append_bytes]
    rfl
  case refine_3 =>
    have high := big 0 (by omega)
    rw [BitVec.add_zero] at high
    rw [read16, high, big 1 (by omega), append_bytes]
    rfl
  case refine_4 => rw [read16, next, big 2 (by omega), big 3 (by omega), append_bytes, Nat.pow_zero, Nat.div_one]

end Sys2Proof.Machine
end

section
/-! ## The checks of a data access, and the faults of the instructions (spec/60_exceptions.md section 2) -/
namespace Sys2Proof.Machine
open Memory

/-- The checks of a data access pass exactly on an accessible address. -/
theorem dataFault_none_iff {s : State} {ea : Word} {n : Nat} (hn : n = 1 ∨ n = 2 ∨ n = 4) :
    dataFault settings s ea n = none ↔ Accessible s ea n := by
  rw [dataFault_none, Accessible]
  refine and_congr_right fun hal => forall₂_congr fun i hi => ?_
  rw [aligned_add_toNat hn hal hi]

/-- Which check of a data access fails, and with what fault (R208, R209, R212). -/
theorem dataFault_some_iff {s : State} {ea : Word} {n : Nat} (hn : n = 1 ∨ n = 2 ∨ n = 4) {f : Fault} :
    dataFault settings s ea n = some f ↔
      (ea.toNat % n ≠ 0 ∧ f = .misalignedData s.pc ea) ∨
      (ea.toNat % n = 0 ∧ (∃ k < n, s.mem.backed (ea.toNat + k) = false) ∧ f = .dataAccess s.pc ea) := by
  by_cases hal : ea.toNat % n = 0
  · by_cases hb : ∃ k < n, s.mem.backed (ea.toNat + k) = false
    · obtain ⟨k, hk, hbk⟩ := hb
      have hbk' := hbk
      rw [← aligned_add_toNat hn hal hk] at hbk'
      rw [dataFault_unbacked hal hk hbk', Option.some.injEq, eq_comm]
      exact ⟨fun e => .inr ⟨hal, ⟨k, hk, hbk⟩, e⟩, by rintro (⟨h, -⟩ | ⟨-, -, e⟩); exacts [absurd hal h, e]⟩
    · have hok : dataFault settings s ea n = none :=
        (dataFault_none_iff hn).2 ⟨hal, fun i hi => by simpa using fun e => hb ⟨i, hi, e⟩⟩
      rw [hok]
      exact ⟨nofun, by rintro (⟨h, -⟩ | ⟨-, h, -⟩); exacts [absurd hal h, absurd h hb]⟩
  · rw [dataFault_misaligned hal, Option.some.injEq, eq_comm]
    exact ⟨fun e => .inl ⟨hal, e⟩, by rintro (⟨-, e⟩ | ⟨h, -⟩); exacts [e, absurd h hal]⟩

theorem loadResult_fault {s : State} {ra : Label} {ea : Word} {n : Nat} {v : Word} {f : Fault} :
    loadResult settings s ra ea n v = .fault f ↔ dataFault settings s ea n = some f := by
  unfold loadResult
  cases dataFault settings s ea n <;> simp [raise, writeResult]

theorem storeResult_fault {s : State} {ea : Word} {n : Nat} {m : Memory} {f : Fault} :
    storeResult settings s ea n m = .fault f ↔ dataFault settings s ea n = some f := by
  rw [storeResult, storeFault_settings]
  cases dataFault settings s ea n <;> simp [raise]

theorem divideResult_fault {s : State} {ra : Label} {p : Pair} {f : Fault} :
    divideResult settings s ra p = .fault f ↔ p.2.toNat = 0 ∧ f = .divideByZero s.pc := by
  by_cases h : p.2.toNat = 0
  · rw [divideResult_zero (BitVec.eq_of_toNat_eq h)]
    simp [h, eq_comm]
  · rw [divideResult_of_ne h]
    simp [h, writeResult]

theorem jumpIf_ne_fault {s : State} {b : Bool} {x : Word} {f : Fault} : jumpIf s b x ≠ .fault f := by
  cases b <;> nofun

/-! No instruction is refused: each ends in one of these. -/

theorem loadResult_ne_refused {s : State} {ra : Label} {ea : Word} {n : Nat} {v : Word} {r : Refusal} :
    loadResult settings s ra ea n v ≠ .refused r := by
  unfold loadResult
  split <;> nofun

theorem storeResult_ne_refused {s : State} {ea : Word} {n : Nat} {m : Memory} {r : Refusal} :
    storeResult settings s ea n m ≠ .refused r := by
  unfold storeResult
  split <;> nofun

theorem divideResult_ne_refused {s : State} {ra : Label} {p : Pair} {r : Refusal} :
    divideResult settings s ra p ≠ .refused r := by
  by_cases h : p.2.toNat = 0
  · rw [divideResult_zero (BitVec.eq_of_toNat_eq h)]
    nofun
  · rw [divideResult_of_ne h]
    nofun

theorem jumpIf_ne_refused {s : State} {b : Bool} {x : Word} {r : Refusal} : jumpIf s b x ≠ .refused r := by
  cases b <;> nofun

theorem exec_ne_refused (i : Instr) (s : State) (r : Refusal) : exec i s ≠ .refused r := by
  cases i with
  | load8Mem ra rb rc | load16Mem ra rb rc | load32Mem ra rb rc => exact loadResult_ne_refused
  | store8 ra rb rc | store16 ra rb rc | store32 ra rb rc => exact storeResult_ne_refused
  | divRR ra rb rc | divRI ra rb imm10 | divIR ra rb imm10 => exact divideResult_ne_refused
  | ojmpImm ra imm16 | ojmpReg ra rb rc | zjmpImm ra imm16 | zjmpReg ra rb rc => exact jumpIf_ne_refused
  | _ => nofun

/-- The faults an instruction raises of its own, by family (R105, R208 to R210). -/
def RaisesOwn (i : Instr) (s : State) (f : Fault) : Prop :=
  (divisorOf s i = some 0 ∧ f = .divideByZero s.pc) ∨
  ∃ rb rc n, accessOf i = some (rb, rc, n) ∧
    (((effectiveAddress s rb rc).toNat % n ≠ 0 ∧ f = .misalignedData s.pc (effectiveAddress s rb rc)) ∨
      ((effectiveAddress s rb rc).toNat % n = 0 ∧
        (∃ k < n, s.mem.backed ((effectiveAddress s rb rc).toNat + k) = false) ∧
        f = .dataAccess s.pc (effectiveAddress s rb rc)))

section Own
variable {i : Instr} {s : State} {f : Fault}

theorem not_raisesOwn (hd : divisorOf s i = none) (ha : accessOf i = none) : ¬ RaisesOwn i s f := by
  rintro (⟨h, -⟩ | ⟨rb, rc, n, h, -⟩)
  · rw [hd] at h; cases h
  · rw [ha] at h; cases h

theorem raisesOwn_access {rb rc : Label} {n : Nat} (hn : n = 1 ∨ n = 2 ∨ n = 4) (hd : divisorOf s i = none)
    (ha : accessOf i = some (rb, rc, n)) :
    RaisesOwn i s f ↔ dataFault settings s (effectiveAddress s rb rc) n = some f := by
  rw [dataFault_some_iff hn]
  constructor
  · rintro (⟨h, -⟩ | ⟨rb', rc', n', h, hf⟩)
    · rw [hd] at h; cases h
    · rw [ha] at h; cases h; exact hf
  · exact fun hf => .inr ⟨rb, rc, n, ha, hf⟩

theorem raisesOwn_divide {d : Nat} (hd : divisorOf s i = some d) (ha : accessOf i = none) :
    RaisesOwn i s f ↔ d = 0 ∧ f = .divideByZero s.pc := by
  rw [RaisesOwn, hd, ha]
  simp

end Own

/-- An instruction faults exactly when its family does: the divisions, the loads and the stores. -/
theorem exec_fault_iff {i : Instr} {s : State} {f : Fault} : exec i s = .fault f ↔ RaisesOwn i s f := by
  cases i with
  | load8Mem ra rb rc | load16Mem ra rb rc | load32Mem ra rb rc =>
    exact loadResult_fault.trans (raisesOwn_access (by omega) rfl rfl).symm
  | store8 ra rb rc | store16 ra rb rc | store32 ra rb rc =>
    exact storeResult_fault.trans (raisesOwn_access (by omega) rfl rfl).symm
  | divRR ra rb rc | divIR ra rb imm10 => exact divideResult_fault.trans (raisesOwn_divide rfl rfl).symm
  | divRI ra rb imm10 =>
    rw [raisesOwn_divide rfl rfl, ← immOperand_toNat imm10 (by omega)]
    exact divideResult_fault
  | ojmpImm ra imm16 | ojmpReg ra rb rc | zjmpImm ra imm16 | zjmpReg ra rb rc =>
    exact iff_of_false jumpIf_ne_fault (not_raisesOwn rfl rfl)
  | _ => exact iff_of_false nofun (not_raisesOwn rfl rfl)

end Sys2Proof.Machine
end

section
/-! ## The statements about spec/40_memory_ops.md -/
namespace Sys2Proof.Machine
open Memory

/-- The ranges of a load's or store's fields (R62). -/
theorem contains_memory_iff {ra rb rc : Label} :
    (LabelRange.target.contains ra && LabelRange.notZero.contains rb && LabelRange.notPc.contains rc) = true ↔
      Target ra ∧ NotZero rb ∧ NotPc rc := by
  rw [Bool.and_assoc, Bool.and_eq_true, contains_target_iff, contains_address_iff]

/-- An instruction that ends in `loadResult` with the number at its address is a load. -/
theorem loads_of_loadResult {i : Instr} {ra rb rc : Label} {n : Nat} {value : State → Word}
    (hn : n = 1 ∨ n = 2 ∨ n = 4)
    (he : ∀ s, exec i s = loadResult settings s ra (effectiveAddress s rb rc) n (value s))
    (hv : ∀ s, (effectiveAddress s rb rc).toNat % n = 0 →
      value s = BitVec.ofNat 32 (littleEndian s (effectiveAddress s rb rc) n)) (ht : Target ra) :
    Loads i ra rb rc n := by
  intro s
  rw [he s]
  refine ⟨fun hacc => ?_, fun hmis => ?_, fun hal hb => ?_⟩
  · rw [← hv s hacc.1]
    exact ⟨_, loadResult_next.2 ⟨(dataFault_none_iff hn).2 hacc, rfl⟩, writesOnly_writeResult s (value s) ht⟩
  · exact loadResult_fault.2 (dataFault_misaligned hmis)
  · exact loadResult_fault.2 ((dataFault_some_iff hn).2 (.inr ⟨hal, hb, rfl⟩))

/-- Settles O24: each form ends in `loadResult` with the number at its effective address. -/
theorem loadsFromMemory : Obligations.LoadsFromMemory := fun ra rb rc =>
  ⟨encoded_of_encode (encode_of_layThree rfl) contains_memory_iff,
    encoded_of_encode (encode_of_layThree rfl) contains_memory_iff,
    encoded_of_encode (encode_of_layThree rfl) contains_memory_iff, fun ht =>
    ⟨loads_of_loadResult (by omega) (fun _ => rfl)
        (fun s _ => by rw [littleEndian_one]; exact loadedValue_eq_ofNat _) ht,
      loads_of_loadResult (by omega) (fun _ => rfl)
        (fun s h => (loadedValue_eq_ofNat _).trans (congrArg (BitVec.ofNat 32) (littleEndian_two (s := s) h).symm)) ht,
      loads_of_loadResult (by omega) (fun _ => rfl)
        (fun s h => by rw [littleEndian_four h, BitVec.ofNat_toNat, BitVec.setWidth_eq]; rfl) ht⟩⟩

/-- An instruction that ends in `storeResult` with a memory that holds the register's bytes is a store. -/
theorem stores_of_storeResult {i : Instr} {ra rb rc : Label} {n : Nat} {write : State → Memory}
    (hn : n = 1 ∨ n = 2 ∨ n = 4)
    (he : ∀ s, exec i s = storeResult settings s (effectiveAddress s rb rc) n (write s))
    (hbytes : ∀ s : State, s.mem.Rising → ∀ k < n,
      (write s).read8 (effectiveAddress s rb rc + BitVec.ofNat 32 k) = BitVec.ofNat 8 ((s.reg ra).toNat / 256 ^ k))
    (hacc : accessOf i = some (rb, rc, n)) : Stores i ra rb rc n := by
  intro s
  refine ⟨fun hinv hok => ?_, fun hmis => ?_, fun hal hb => ?_⟩
  · have hnext : exec i s = .next (s.setMem (write s)).advance :=
      (he s).trans (storeResult_next.2 ⟨(dataFault_none_iff hn).2 hok, rfl⟩)
    obtain ⟨-, -, hmap, hother⟩ := frameOfEveryInstruction i s _ hnext
    refine ⟨_, hnext, fun k hk => ?_, hother rb rc n hacc, hmap, fun l hl => reg_advance _ l hl, rfl⟩
    rw [byte_add hn hok.1 hk]
    exact hbytes s (rising_of_wf hinv) k hk
  · exact (he s).trans (storeResult_fault.2 (dataFault_misaligned hmis))
  · exact (he s).trans (storeResult_fault.2 ((dataFault_some_iff hn).2 (.inr ⟨hal, hb, rfl⟩)))

/-- A byte of the low half of a word is a byte of the word. -/
theorem extractLsb'_low_half (v : Word) {k : Nat} (hk : k < 2) :
    (v.extractLsb' 0 16).extractLsb' (8 * k) 8 = v.extractLsb' (8 * k) 8 := by
  apply BitVec.eq_of_toNat_eq
  simp only [BitVec.extractLsb'_toNat, Nat.shiftRight_eq_div_pow]
  interval_cases k <;> omega

/-- Settles O25: each form ends in `storeResult` with the low bytes of the register written in little-endian
order. -/
theorem storesToMemory : Obligations.StoresToMemory := by
  refine fun ra rb rc => ⟨encoded_of_encode (encode_of_layThree rfl) contains_memory_iff,
    encoded_of_encode (encode_of_layThree rfl) contains_memory_iff,
    encoded_of_encode (encode_of_layThree rfl) contains_memory_iff,
    stores_of_storeResult (by omega) (fun _ => rfl) (fun s hr k hk => ?_) rfl,
    stores_of_storeResult (by omega) (fun _ => rfl) (fun s hr k hk => ?_) rfl,
    stores_of_storeResult (by omega) (fun _ => rfl) (fun s hr k hk => ?_) rfl⟩
  case refine_1 =>
    obtain rfl : k = 0 := by omega
    rw [← extractLsb'_byte, BitVec.add_zero, read8_write8 hr, if_pos rfl]
  case refine_2 =>
    rw [← extractLsb'_byte, ← extractLsb'_low_half _ hk]
    exact read8_write16_little hr _ _ hk
  case refine_3 => exact read8_write32_little hr _ _ hk

/-- With registers other than %PC, a store leaves the effective address as it is. -/
theorem effectiveAddress_advance {s : State} {m : Memory} {rb rc : Label} (hb : NotPc rb) (hc : NotPc rc) :
    effectiveAddress (s.setMem m).advance rb rc = effectiveAddress s rb rc := by
  have ne {l : Label} (h : NotPc l) : l ≠ 41 := by rintro rfl; exact absurd h (by decide)
  rw [effectiveAddress, reg_advance _ rb (ne hb), reg_advance _ rc (ne hc)]
  rfl

/-- After a store, a load at the same operands passes the same checks and reads the memory the store left. -/
theorem exec_load_after_store {i j : Instr} {s t : State} {rb rc rd : Label} {n : Nat} {m : Memory}
    {value : Memory → Word → Word} (hn : n = 1 ∨ n = 2 ∨ n = 4) (hb : NotPc rb) (hc : NotPc rc) (hd : Target rd)
    (hi : exec i s = storeResult settings s (effectiveAddress s rb rc) n m) (hm : m.map = s.mem.map)
    (hj : ∀ t, exec j t = loadResult settings t rd (effectiveAddress t rb rc) n
      (value t.mem (effectiveAddress t rb rc)))
    (h : exec i s = .next t) : ∃ u, exec j t = .next u ∧ u.reg rd = value m (effectiveAddress s rb rc) := by
  obtain ⟨hok, rfl⟩ := storeResult_next.1 (hi.symm.trans h)
  obtain ⟨hal, hback⟩ := (dataFault_none_iff hn).1 hok
  have hload := hj (s.setMem m).advance
  rw [effectiveAddress_advance hb hc] at hload
  refine ⟨_, hload.trans (loadResult_next.2 ⟨?_, rfl⟩), reg_writeResult_same _ rd _ hd.1 hd.2⟩
  exact (dataFault_none_iff hn).2 ⟨hal, fun k hk => (backed_congr hm _).trans (hback k hk)⟩

/-- Settles O51: the memory the store left holds, at its address, what it wrote there. -/
theorem loadAfterStoreReadsValue : Obligations.LoadAfterStoreReadsValue := by
  intro ra rb rc rd s t hinv hd hb hc
  have hr := rising_of_wf hinv
  refine ⟨fun h => ?_, fun h => ?_, fun h => ?_⟩
  case refine_1 =>
    obtain ⟨u, hu, hv⟩ := exec_load_after_store (j := .load8Mem rd rb rc)
      (value := fun m a => loadedValue (m.read8 a)) (by omega) hb hc hd rfl (write8_map _ _ _) (fun _ => rfl) h
    refine ⟨u, hu, ?_⟩
    rw [hv, read8_write8 hr, if_pos rfl, loadedValue_toNat _ (by omega), BitVec.extractLsb'_toNat]
    rfl
  case refine_2 =>
    obtain ⟨u, hu, hv⟩ := exec_load_after_store (j := .load16Mem rd rb rc)
      (value := fun m a => loadedValue (read16 .little m a)) (by omega) hb hc hd rfl (write16_map _ _ _ _)
      (fun _ => rfl) h
    refine ⟨u, hu, ?_⟩
    rw [hv, settings_endian, read16_write16 hr, loadedValue_toNat _ (by omega), BitVec.extractLsb'_toNat]
    rfl
  case refine_3 =>
    obtain ⟨u, hu, hv⟩ := exec_load_after_store (j := .load32Mem rd rb rc)
      (value := fun m a => read32 .little m a) (by omega) hb hc hd rfl (write32_map _ _ _ _) (fun _ => rfl) h
    exact ⟨u, hu, hv.trans (read32_write32 hr _ _)⟩

end Sys2Proof.Machine
end

section
/-! ## The step (spec/70_reset_and_hazards.md R235, spec/20_memory.md R37) -/
namespace Sys2Proof.Machine
open Memory

/-- `Fetches` is the fetch that succeeds. -/
theorem fetch_ok_iff {s : State} {w : Word} : fetch s = .ok w ↔ Fetches s w := by
  have backed_iff (h : s.pc.toNat % 4 = 0) : (∀ i < 4, s.mem.backed (s.pc + BitVec.ofNat 32 i).toNat = true) ↔
      ∀ k < 4, s.mem.backed (s.pc.toNat + k) = true := forall₂_congr fun i hi => by
    rw [aligned_add_toNat (by omega) h hi]
  rw [fetch_ok, Fetches]
  refine and_congr_right fun hal => ?_
  rw [backed_iff hal, littleEndian_four hal, BitVec.toNat_inj, eq_comm]

/-- Which check of the fetch fails, and with what fault (R207, R208, R212). -/
theorem fetch_misaligned {s : State} (h : s.pc.toNat % 4 ≠ 0) : fetch s = .error (.misalignedFetch s.pc) := if_pos h

theorem fetch_unbacked {s : State} (h : s.pc.toNat % 4 = 0) {k : Nat} (hk : k < 4)
    (hb : s.mem.backed (s.pc.toNat + k) = false) : fetch s = .error (.fetchAccess s.pc) := by
  have hno : ¬ s.mem.backedFrom s.pc 4 = true := fun hall => by
    have hbk := (backedFrom_iff _ _ _).1 hall k hk
    rw [aligned_add_toNat (by omega) h hk, hb] at hbk
    cases hbk
  rw [fetch, if_neg (not_not.2 h), if_neg hno]

theorem fetch_error {s : State} {f : Fault} (h : fetch s = .error f) :
    f = .misalignedFetch s.pc ∨ f = .fetchAccess s.pc := by
  unfold fetch at h
  split at h
  · cases h; exact .inl rfl
  · split at h
    · cases h
    · cases h; exact .inr rfl

theorem step_of_fetch_error {s : State} {f : Fault} (h : fetch s = .error f) : step s = .fault f := by
  rw [step, h]
  rfl

/-- A rejected word is IllegalInstruction, whatever the reason (R206). -/
theorem step_of_decode_error {s : State} {w : Word} {r : DecodeReject} (hf : fetch s = .ok w)
    (hd : decode w = .error r) : step s = .fault (.illegalInstruction s.pc w) := by
  rw [step, hf]
  simp only [hd]
  rcases decode_error hd with rfl | rfl | rfl <;> rfl

/-- What a step can be: a fault of its fetch, a rejected word, or an instruction. -/
theorem step_cases (s : State) :
    (∃ f, fetch s = .error f ∧ step s = .fault f) ∨
    ∃ w, Fetches s w ∧ (step s = .fault (.illegalInstruction s.pc w) ∨ ∃ i, decode w = .ok i ∧ step s = exec i s) := by
  cases hf : fetch s with
  | error f => exact .inl ⟨f, rfl, step_of_fetch_error hf⟩
  | ok w =>
    refine .inr ⟨w, fetch_ok_iff.1 hf, ?_⟩
    cases hd : decode w with
    | error r => exact .inl (step_of_decode_error hf hd)
    | ok i => exact .inr ⟨i, rfl, step_eq_exec hf hd⟩

/-- Settles O35: the fetch reads the word, and the step is what it decodes to. -/
theorem stepRunsDecodedInstruction : Obligations.StepRunsDecodedInstruction :=
  fun _ _ _ hf hd => step_eq_exec (fetch_ok_iff.2 hf) hd

/-- Settles O36: the alignment check comes before the backing check. -/
theorem fetchStopsOnBadPc : Obligations.FetchStopsOnBadPc := fun _ =>
  ⟨fun h => step_of_fetch_error (fetch_misaligned h),
    fun h _ hk hb => step_of_fetch_error (fetch_unbacked h hk hb)⟩

/-- Settles O37: no reason the decoder rejects a word for is a refusal. -/
theorem undecodedWordsStop : Obligations.UndecodedWordsStop :=
  fun _ _ _ hf hd => step_of_decode_error (fetch_ok_iff.2 hf) hd

/-- Settles O38: a step is a fault of its fetch, a rejected word or an instruction, and each instruction faults as
its family does. -/
theorem stepNeverRefused : Obligations.StepNeverRefused := by
  refine ⟨fun s r h => ?_, fun s f h => ?_, fun i s f => exec_fault_iff⟩
  · rcases step_cases s with ⟨f, -, e⟩ | ⟨w, -, e | ⟨i, -, e⟩⟩ <;> rw [e] at h
    · cases h
    · cases h
    · exact exec_ne_refused i s r h
  · rcases step_cases s with ⟨g, hg, e⟩ | ⟨w, hw, e | ⟨i, hd, e⟩⟩ <;> rw [e] at h
    · cases h
      exact (fetch_error hg).imp_right .inl
    · cases h
      exact .inr (.inr ⟨w, hw, .inl rfl⟩)
    · exact .inr (.inr ⟨w, hw, .inr ⟨i, hd, h⟩⟩)

/-- Settles O52: the store's four bytes are backed and hold the register. -/
theorem storedWordIsFetched : Obligations.StoredWordIsFetched := by
  intro ra rb rc s t hinv h
  obtain ⟨hok, rfl⟩ := storeResult_next.1 h
  obtain ⟨hal, hback⟩ := dataFault_none.1 hok
  refine fetch_ok_iff.1 (fetch_ok.2 ⟨hal, fun k hk => ?_, (read32_write32 (rising_of_wf hinv) _ _).symm⟩)
  exact hback k hk

/-! ### A word placed at `pc` (logs 5 and 23) -/

/-- A listed address of a canonical memory is an address of the space. -/
theorem lt_of_backed {m : Memory} (h : m.wf = true) {a : Nat} (ha : m.backed a = true) : a < Config.addressCount := by
  obtain ⟨hmap, -⟩ := (wf_iff m).1 h
  simp only [mapWf, Bool.and_eq_true, List.all_eq_true, decide_eq_true_eq] at hmap
  obtain ⟨r, hr, hra⟩ := List.any_eq_true.1 ha
  have hend := (hmap.1 r hr).2
  simp only [Region.holds, Bool.and_eq_true, decide_eq_true_eq] at hra
  omega

/-- The whole address space as map backs every address. -/
theorem backed_resetMap (cells : List Host.Cell) (a : Nat) :
    (⟨Config.resetMap, cells⟩ : Memory).backed a = decide (a < Config.addressCount) := by
  simp [backed, Config.resetMap, Region.holds]

/-- Widening the map to the whole address space keeps the canonical form. -/
theorem wf_resetMap {m : Memory} (h : m.wf = true) : (⟨Config.resetMap, m.cells⟩ : Memory).wf = true := by
  obtain ⟨-, hcells, hlisted⟩ := (wf_iff m).1 h
  have hmap : (⟨Config.resetMap, []⟩ : Memory).mapWf = true := by decide
  refine (wf_iff _).2 ⟨hmap, hcells, fun p hp => ⟨(hlisted p hp).1, ?_⟩⟩
  rw [backed_resetMap]
  exact decide_eq_true (lt_of_backed h (hlisted p hp).2)

/-- Placing a word writes it into a canonical memory with the same bytes that backs the four at `pc`. -/
theorem placeWord_eq {m : Memory} (h : m.wf = true) (pc w : Word) :
    ∃ b : Memory, placeWord m pc w = write32 .little b pc w ∧ b.wf = true ∧ b.cells = m.cells ∧
      b.backedFrom pc 4 = true := by
  by_cases hb : m.backedFrom pc 4 = true
  · exact ⟨m, by rw [placeWord, if_pos hb, settings_endian], h, rfl, hb⟩
  · refine ⟨⟨Config.resetMap, m.cells⟩, by rw [placeWord, if_neg hb, settings_endian], wf_resetMap h, rfl, ?_⟩
    refine (backedFrom_iff _ _ _).2 fun i _ => ?_
    rw [backed_resetMap]
    exact decide_eq_true (BitVec.isLt _)

/-- Settles O39: the word placed is the one fetched. -/
theorem placedWordRunsNext : Obligations.PlacedWordRunsNext := by
  intro s nbits n i hinv hal hd
  obtain ⟨b, hplace, hwf, hcells, hback⟩ := placeWord_eq hinv s.pc (BitVec.ofNat 32 (n % 2 ^ nbits))
  have hmem : (s.withFetchWord nbits n).mem = write32 .little b s.pc (BitVec.ofNat 32 (n % 2 ^ nbits)) := hplace
  refine ⟨step_eq_exec (fetch_ok.2 ⟨hal, ?_, ?_⟩) hd, ?_, rfl, rfl, fun a ha => ?_⟩
  case refine_1 =>
    rw [← backedFrom_iff, hmem, backedFrom_congr (write32_map _ _ _ _)]
    exact hback
  case refine_2 =>
    rw [hmem]
    exact (read32_write32 (rising_of_wf hwf) _ _).symm
  case refine_3 =>
    rw [State.Inv, hmem]
    exact wf_write32 _ hwf _ _ hback
  case refine_4 =>
    rw [hmem, byte_write32_ne _ _ _ fun k hk => by rw [aligned_add_toNat (by omega) hal hk]; exact ha k hk, byte,
      hcells, byte]

end Sys2Proof.Machine
end

section
/-! ## Where a step leaves `pc`, final states, the reset state and the settings of a store -/
namespace Sys2Proof.Machine
open Memory

/-- A jump that is taken goes to its target and does nothing else (R185 to R191). -/
theorem exec_of_takenTarget {i : Instr} {s : State} {x : Word} (h : takenTarget s i = some x) :
    exec i s = .next (s.setPc x) := by
  have taken {b : Bool} {y : Word} (hb : b = true) (hy : y = x) : jumpIf s b y = .next (s.setPc x) := by
    rw [hb, hy]
    rfl
  cases i with
  | jmpImm imm22 => cases h; rw [← immOperand_eq_ofNat]; rfl
  | jmpReg rb rc => cases h; rfl
  | ojmpImm ra imm16 | zjmpImm ra imm16 =>
    obtain ⟨hc, hx⟩ := Option.ite_none_right_eq_some.1 h
    exact taken (decide_eq_true hc) ((immOperand_eq_ofNat imm16).trans (Option.some.inj hx))
  | ojmpReg ra rb rc | zjmpReg ra rb rc =>
    obtain ⟨hc, hx⟩ := Option.ite_none_right_eq_some.1 h
    exact taken (decide_eq_true hc) (Option.some.inj hx)
  | _ => cases h

/-- No instruction but a jump taken to `pc` leaves `pc` where it is. -/
theorem takenTarget_of_same_pc {i : Instr} {s t : State} (h : exec i s = .next t) (hpc : t.pc = s.pc) :
    takenTarget s i = some s.pc := by
  have hgo := pc_of_exec h
  cases htaken : takenTarget s i with
  | some x => rw [htaken] at hgo; exact congrArg some (hgo.symm.trans hpc)
  | none =>
    rw [htaken, hpc] at hgo
    exact absurd (BitVec.self_eq_add_right.1 hgo) (by decide)

/-- Settles O55: the step of a final state leaves `pc` where it is, and a jump taken to `pc` changes nothing. -/
theorem finalStateIsJumpToItself : Obligations.FinalStateIsJumpToItself := by
  intro s
  constructor
  · intro hfinal
    obtain ⟨w, i, hf, hd, hexec⟩ := step_next.1 hfinal
    exact ⟨w, i, fetch_ok_iff.1 hf, hd, takenTarget_of_same_pc hexec rfl⟩
  · rintro ⟨w, i, hf, hd, htaken⟩
    exact (step_eq_exec (fetch_ok_iff.2 hf) hd).trans (exec_of_takenTarget htaken)

/-- An immediate whose number is the address `pc` is `pc`. -/
theorem ofNat_eq_pc {n : Nat} {s : State} (h : n = s.pc.toNat) : BitVec.ofNat 32 n = s.pc := by
  rw [h, BitVec.ofNat_toNat, BitVec.setWidth_eq]

/-- Settles O56: each idiom decodes to a jump taken to its own address. -/
theorem haltingIdiomsAreFinal : Obligations.HaltingIdiomsAreFinal := by
  refine fun s => ⟨fun hf => ?_, fun imm22 h hf => ?_, fun imm16 h hf => ?_⟩
  case refine_1 =>
    exact (finalStateIsJumpToItself s).2 ⟨_, .jmpReg Label.pc Label.zero, hf, by decide,
      congrArg some (effectiveAddress_zero s Label.pc)⟩
  case refine_2 =>
    exact (finalStateIsJumpToItself s).2 ⟨_, .jmpImm imm22, hf,
      decode_ok_iff.2 ⟨rfl, encode_of_layJ rfl⟩, congrArg some (ofNat_eq_pc h)⟩
  case refine_3 =>
    exact (finalStateIsJumpToItself s).2 ⟨_, .zjmpImm Label.zero imm16, hf,
      decode_ok_iff.2 ⟨rfl, encode_of_layI16 rfl⟩, congrArg some (ofNat_eq_pc h)⟩

/-- Settles O57: the instruction decides where `pc` goes, and one that leaves it in place is final. -/
theorem completedStepMovesPc : Obligations.CompletedStepMovesPc := by
  intro s t h
  obtain ⟨w, i, hf, hd, hexec⟩ := step_next.1 h
  refine ⟨⟨w, i, fetch_ok_iff.1 hf, hd, pc_of_exec hexec, fun hnone => ?_⟩, fun hnot hpc => hnot ?_⟩
  · obtain ⟨hal, -⟩ := fetch_ok.1 hf
    rw [pc_of_exec hexec, hnone, Option.getD_none, BitVec.toNat_add]
    simp only [BitVec.toNat_ofNat]
    omega
  · exact (finalStateIsJumpToItself s).2 ⟨w, i, fetch_ok_iff.1 hf, hd, takenTarget_of_same_pc hexec hpc⟩

/-! ### Reset -/

/-- Every register but %PC reads 0 at reset (R12, log 1). -/
theorem reg_reset {l : Label} (h : Target l) : State.reset.reg l = 0#32 := by
  simp [reg_gpr _ l h.1 h.2, State.reset, State.boot]

/-- At reset the four bytes at `pc` are backed and blank. -/
theorem fetches_reset : Fetches State.reset 0#32 := by
  unfold Fetches
  decide

/-- Settles O54: the reset state's registers, map and bytes, and the word its first fetch reads. -/
theorem resetState : Obligations.ResetState := by
  refine ⟨rfl, rfl, fun l h => reg_reset h, fun a => ?_, fun _ => rfl, undecodedWordsStop _ _ _ fetches_reset rfl⟩
  exact (backed_resetMap [] a).congr_left.trans decide_eq_true_iff

/-! ### Other settings of a store -/

/-- Under MISALIGNED_DATA = split only backing is checked. -/
theorem dataFault_split {c : Settings} {s : State} {ea : Word} {n : Nat} (h : c.misalignedData = .split) :
    dataFault c s ea n = none ↔ ∀ k < n, s.mem.backed (ea + BitVec.ofNat 32 k).toNat = true := by
  rw [dataFault, if_neg (by simp [h]), ← backedFrom_iff]
  split <;> simp_all

theorem writesText_refuse {c : Settings} {text : List Region} (h : c.codeWrites = .refuse text) (ea : Word) (n : Nat) :
    writesText c ea n = true ↔ ∃ k < n, ∃ r ∈ text, r.holds (ea + BitVec.ofNat 32 k).toNat = true := by
  simp [writesText, h]

/-- A store whose data checks pass is decided by CODE_WRITES. -/
theorem storeResult_of_dataFault_none {c : Settings} {s : State} {ea : Word} {n : Nat} (m : Memory)
    (h : dataFault c s ea n = none) :
    storeResult c s ea n m =
      if writesText c ea n then .fault (.codeWrite s.pc ea) else .next (s.setMem m).advance := by
  rw [storeResult, storeFault, h]
  cases writesText c ea n <;> rfl

/-- Settles O53: after the data checks the text check alone decides. -/
theorem storeSettings : Obligations.StoreSettings := by
  intro c s ea n m text
  refine ⟨fun hc hd htext => ?_, fun hc hd hfree => ?_, dataFault_split⟩
  · rw [storeResult_of_dataFault_none m hd, if_pos ((writesText_refuse hc ea n).2 htext)]
  · rw [storeResult_of_dataFault_none m hd, if_neg]
    intro hw
    obtain ⟨k, hk, r, hr, hholds⟩ := (writesText_refuse hc ea n).1 hw
    rw [hfree k hk r hr] at hholds
    cases hholds

end Sys2Proof.Machine
end
